-- ==== Sys2Proof/Word.lean ====
section
/-! DEFINITION. The two word types of the block: R7 (a bus word is 32 bits) and R13 (Word32 and Byte, both unsigned). -/

namespace Sys2Proof

/-- R7, R8, R13: a 32-bit bus word, bus address or queue word. -/
abbrev Word := BitVec 32

/-- R13: a byte. -/
abbrev Byte := BitVec 8

end Sys2Proof
end

