-- ==== Sys2Proof/Machine/Flags.lean ====
section
/-! DEFINITION. The two status flags the block reads (R37). It owns none. -/

namespace Sys2Proof.Machine

/-- R37, R160: `trng_ready(s) := s[0] = 1`; bits 31:1 are ignored. -/
def trngReady (s : Word) : Bool := s.extractLsb' 0 1 == 1#1

/-- R37, R57: `tx_ready(s) := s ≠ 0`, all 32 bits taking part. -/
def txReady (s : Word) : Bool := s != 0#32

end Sys2Proof.Machine
end

