-- ==== Sys2Proof/Config.lean ====
section
/-! DEFINITION. The implementation parameters of R11 and the free value of a bus read (R60). -/

namespace Sys2Proof

/-- R11: the parameters the model takes as arguments. A State carries one such record (its field `params`), which
every step reads and none writes, so a statement about every state is a statement about every parameter. -/
structure Params where
  /-- `MMIO_BASE`, the global base address. -/
  mmioBase : Word
  /-- `UART_SEL`. -/
  uartSel : Word
  /-- `TRNG_SEL`. -/
  trngSel : Word
  /-- `CTRL_SEL`. -/
  ctrlSel : Word
  /-- `BLINK_DELAY`, the iteration count of the blink engine's busy-wait. -/
  blinkDelay : Nat
  /-- `PROG0`, the command queue's content at reset. -/
  prog0 : List Word
  deriving DecidableEq, Repr

/-- DESIGN CHOICE (log entry 1, unsafe for a claim about `State.reset` alone): no source gives the parameters a value.
The reset state needs some, and takes Configuration A of 95_test_vectors.md section 2.2, a delay of 2 (the second
blink vector of section 2.6) and an empty first queue (vector S2 of section 2.7). No statement rests on these values. -/
def Config.params : Params where
  mmioBase := 0x80000000#32
  uartSel := 0x00010000#32
  trngSel := 0x00020000#32
  ctrlSel := 0x00030000#32
  blinkDelay := 2
  prog0 := []

/-- R60, R72: the free value of the bus read numbered `n` (reads counted from 0 over the whole run), used where the
state's scripted answers have run out. It has no body: nothing constrains it (log entry 3, safe). -/
opaque Config.freeRead : Nat → Word

end Sys2Proof
end

