-- ==== Sys2Proof/Syntax.lean ====
section
/-! DEFINITION. The commands of spec/opcode_table.json, one constructor of Instr per row; the eleven register
handles of R53 their operands name; the fault causes of R201 that decoding one can answer. -/

namespace Sys2Proof

/-- R53: the eleven register handles, in the order of their numbers 0 to 10. -/
inductive Handle where
  | uartBitRate
  | uartDataBits
  | uartStopBits
  | uartRxStatus
  | uartRxData
  | uartRxCount
  | uartTxStatus
  | uartTxData
  | trngStatus
  | trngEntropy
  | led
  deriving DecidableEq, Repr

/-- R201: the fault causes, codes 0 to 4 in this order. -/
inductive FaultCause where
  /-- FC_EXTERNAL, the `fault_req` input (R223). -/
  | external
  /-- FC_SOFTWARE, the FAULT command (R181). -/
  | software
  /-- FC_ILLEGAL_COMMAND: reserved opcode, a set must-be-zero bit, non-zero payload padding (R88). -/
  | illegalCommand
  /-- FC_BAD_HANDLE: PEEK or POKE with handle 11 to 15 (R88). -/
  | badHandle
  /-- FC_ACCESS: PEEK of a write-only or POKE of a read-only register (R88). -/
  | access
  deriving DecidableEq, Repr

/-- R82: the six commands, with their operands decoded. -/
inductive Instr where
  /-- R180. -/
  | idle
  /-- R110: read the register of handle `h`. -/
  | peek (h : Handle)
  /-- R111: write `v` to the register of handle `h`. -/
  | poke (h : Handle) (v : Word)
  /-- R150. -/
  | harvest
  /-- R130: send the payload, first byte first. -/
  | transmit (bytes : List Byte)
  /-- R181. -/
  | fault
  deriving DecidableEq, Repr

end Sys2Proof
end

