-- ==== Sys2Proof/Machine/Operands.lean ====
section
/-! DEFINITION. Operand forms: handle numbers, offsets, access rights and addresses (R51 to R54, R87), and the
big-endian byte order of entropy words and payload words (R61, R84, R153). -/

namespace Sys2Proof

/-- R53: every handle, in the order of its number. -/
def Handle.all : List Handle :=
  [.uartBitRate, .uartDataBits, .uartStopBits, .uartRxStatus, .uartRxData, .uartRxCount,
   .uartTxStatus, .uartTxData, .trngStatus, .trngEntropy, .led]

/-- R53: the handle's number, 0 to 10. -/
def Handle.number : Handle → BitVec 4
  | .uartBitRate => 0
  | .uartDataBits => 1
  | .uartStopBits => 2
  | .uartRxStatus => 3
  | .uartRxData => 4
  | .uartRxCount => 5
  | .uartTxStatus => 6
  | .uartTxData => 7
  | .trngStatus => 8
  | .trngEntropy => 9
  | .led => 10

/-- R87: the register a handle field selects; 11 to 15 name none. -/
def Handle.ofNumber? (n : BitVec 4) : Option Handle :=
  match n.toNat with
  | 0 => some .uartBitRate
  | 1 => some .uartDataBits
  | 2 => some .uartStopBits
  | 3 => some .uartRxStatus
  | 4 => some .uartRxData
  | 5 => some .uartRxCount
  | 6 => some .uartTxStatus
  | 7 => some .uartTxData
  | 8 => some .trngStatus
  | 9 => some .trngEntropy
  | 10 => some .led
  | _ => none

/-- R53: the access column has R. -/
def Handle.canRead : Handle → Bool
  | .uartTxData | .led => false
  | _ => true

/-- R53: the access column has W. -/
def Handle.canWrite : Handle → Bool
  | .uartBitRate | .uartDataBits | .uartStopBits | .uartTxData | .led => true
  | _ => false

/-- R53: the register's offset in its block. -/
def Handle.offset : Handle → Word
  | .uartBitRate => 0x40
  | .uartDataBits => 0x44
  | .uartStopBits => 0x48
  | .uartRxStatus => 0x80
  | .uartRxData => 0x84
  | .uartRxCount => 0x88
  | .uartTxStatus => 0x100
  | .uartTxData => 0x104
  | .trngStatus => 0x24
  | .trngEntropy => 0x80
  | .led => 0x24

/-- R52: the selector of the block the register lies in. -/
def Handle.selector (p : Params) : Handle → Word
  | .trngStatus | .trngEntropy => p.trngSel
  | .led => p.ctrlSel
  | _ => p.uartSel

/-- R51: `addr(h) = MMIO_BASE | SEL | OFFSET`. -/
def Handle.addr (p : Params) (h : Handle) : Word :=
  p.mmioBase ||| h.selector p ||| h.offset

/-- No two entries of a list of addresses are equal. -/
def allDistinct : List Word → Bool
  | [] => true
  | a :: as => !as.contains a && allDistinct as

/-- R11: the queue never exceeds 2^32 - 1 words. -/
def queueLimit : Nat := 2 ^ 32 - 1

/-- R54 (a) and (b): the eleven addresses are pairwise distinct and 4-aligned; and `PROG0` keeps R11's bound on the
queue. -/
def Params.ok (p : Params) : Bool :=
  allDistinct (Handle.all.map (Handle.addr p))
    && Handle.all.all (fun h => (h.addr p).extractLsb' 0 2 == 0#2)
    && decide (p.prog0.length ≤ queueLimit)

/-- R153: `be_byte(w, j) = w[31 - 8j : 24 - 8j]`, the byte `j` (0 to 3) of a word, most significant first. -/
def beByte (w : Word) (j : Nat) : Byte := w.extractLsb' (24 - 8 * j) 8

/-- R61, R153: the four bytes of a word, most significant first. -/
def wordBytes (w : Word) : List Byte := [beByte w 0, beByte w 1, beByte w 2, beByte w 3]

/-- R153: the word whose bytes are, most significant first, `a b c d`. -/
def bytesWord (a b c d : Byte) : Word := a ++ b ++ c ++ d

/-- R84: the number of words that carry `n` payload bytes, `ceil(n/4)`. -/
def payloadWords (n : Nat) : Nat := (n + 3) / 4

/-- R84: payload bytes packed four to a word, the first in bits 31:24, the last word padded with zero bytes. -/
def packPayload : List Byte → List Word
  | [] => []
  | [a] => [bytesWord a 0 0 0]
  | [a, b] => [bytesWord a b 0 0]
  | [a, b, c] => [bytesWord a b c 0]
  | a :: b :: c :: d :: rest => bytesWord a b c d :: packPayload rest

/-- R13: `zext_32(b)`. -/
def zextByte (b : Byte) : Word := b.setWidth 32

/-- R201: the code of a fault cause. -/
def FaultCause.code : FaultCause → Nat
  | .external => 0
  | .software => 1
  | .illegalCommand => 2
  | .badHandle => 3
  | .access => 4

end Sys2Proof
end

