-- ==== Sys2Proof/WellFormed.lean ====
section
/-! DEFINITION. Which terms of Instr are commands of the spec: a PEEK reads a readable register (R110), a POKE writes a
writable one (R111), a TRANSMIT payload has at most 65535 bytes (R30, R84). -/

namespace Sys2Proof

/-- R30, R84: the longest TRANSMIT payload, in bytes. -/
def maxPayload : Nat := 65535

/-- The operands of the command are ones the spec gives it. -/
def Instr.wellFormed : Instr → Bool
  | .idle => true
  | .peek h => h.canRead
  | .poke h _ => h.canWrite
  | .harvest => true
  | .transmit bytes => decide (bytes.length ≤ maxPayload)
  | .fault => true

end Sys2Proof
end

