-- ==== Sys2Proof/Decode.lean ====
section
/-! DEFINITION. Decoding the command at the head of the queue (R81 to R91) and, after it, the encoder written from the
same formats (R83 to R85). -/

namespace Sys2Proof

/-- R88: decoding answers a command with its length in words, a fault cause, or WAIT. -/
inductive DecodeResult where
  | command (i : Instr) (len : Nat)
  | illegal (c : FaultCause)
  | wait
  deriving DecidableEq, Repr

/-- R81: `op = W[31:28]`. -/
def opField (w : Word) : BitVec 4 := w.extractLsb' 28 4

/-- R81: `h = W[27:24]`. -/
def handleField (w : Word) : BitVec 4 := w.extractLsb' 24 4

/-- R81: `len = W[15:0]`. -/
def lenField (w : Word) : BitVec 16 := w.extractLsb' 0 16

/-- R83 format A: bits 27:0 must be 0 and the command is one word. -/
def decodeFormatA (i : Instr) (w : Word) : DecodeResult :=
  if w.extractLsb' 0 28 = 0#28 then .command i 1 else .illegal .illegalCommand

/-- R88 format H, the checks PEEK and POKE share, in their order: bits 23:0, then the handle, then its capability. -/
def decodeFormatH (allowed : Handle → Bool) (w : Word) : Except FaultCause Handle :=
  if w.extractLsb' 0 24 ≠ 0#24 then .error .illegalCommand
  else
    match Handle.ofNumber? (handleField w) with
    | none => .error .badHandle
    | some h => if allowed h then .ok h else .error .access

/-- R88, `op = 0x1`. -/
def decodePeek (w : Word) : DecodeResult :=
  match decodeFormatH Handle.canRead w with
  | .error c => .illegal c
  | .ok h => .command (.peek h) 1

/-- R88, `op = 0x2`: the data word is waited for only when the head word is legal. -/
def decodePoke (w : Word) (rest : List Word) : DecodeResult :=
  match decodeFormatH Handle.canWrite w with
  | .error c => .illegal c
  | .ok h =>
    match rest with
    | [] => .wait
    | v :: _ => .command (.poke h v) 2

/-- R84: all bytes of the payload words, padding included. -/
def unpackWords (ws : List Word) : List Byte := ws.flatMap wordBytes

/-- R88, `op = 0x4`: bits 27:16, then the wait for the payload words, then the padding. -/
def decodeTransmit (w : Word) (rest : List Word) : DecodeResult :=
  if w.extractLsb' 16 12 ≠ 0#12 then .illegal .illegalCommand
  else
    let n := (lenField w).toNat
    let m := payloadWords n
    if rest.length < m then .wait
    else
      let bytes := unpackWords (rest.take m)
      if (bytes.drop n).all (fun b => b == 0#8) then .command (.transmit (bytes.take n)) (1 + m)
      else .illegal .illegalCommand

/-- R88: decode the command at the head of the words not yet consumed. Total; every reserved encoding is answered with
its fault cause (R89). -/
def decode : List Word → DecodeResult
  | [] => .wait
  | w :: rest =>
    match (opField w).toNat with
    | 0x0 => decodeFormatA .idle w
    | 0x1 => decodePeek w
    | 0x2 => decodePoke w rest
    | 0x3 => decodeFormatA .harvest w
    | 0x4 => decodeTransmit w rest
    | 0xF => decodeFormatA .fault w
    | _ => .illegal .illegalCommand

/-- R88: `decode(PROG, PC)`. -/
def decodeAt (prog : List Word) (pc : Nat) : DecodeResult := decode (prog.drop pc)

/-- R86: a command's length in words, from its head word alone. -/
def headLength (w : Word) : Nat :=
  match (opField w).toNat with
  | 0x2 => 2
  | 0x4 => 1 + payloadWords (lenField w).toNat
  | _ => 1

/-- R86: a command's length in words. -/
def Instr.length : Instr → Nat
  | .poke _ _ => 2
  | .transmit bytes => 1 + payloadWords bytes.length
  | _ => 1

/-- R82: the opcode of a command. -/
def Instr.opcode : Instr → BitVec 4
  | .idle => 0x0
  | .peek _ => 0x1
  | .poke _ _ => 0x2
  | .harvest => 0x3
  | .transmit _ => 0x4
  | .fault => 0xF

/-- R81: a head word from its fields; the reserved field is 0. -/
def headWord (op h : BitVec 4) (len : BitVec 16) : Word := op ++ h ++ 0#8 ++ len

/-- R83 to R85: the words of a command. -/
def encode (i : Instr) : List Word :=
  match i with
  | .idle => [headWord i.opcode 0 0]
  | .peek h => [headWord i.opcode h.number 0]
  | .poke h v => [headWord i.opcode h.number 0, v]
  | .harvest => [headWord i.opcode 0 0]
  | .transmit bytes => headWord i.opcode 0 (BitVec.ofNat 16 bytes.length) :: packPayload bytes
  | .fault => [headWord i.opcode 0 0]

/-- The words of a command given as one number, bit 0 the least significant bit of the head word and each later word's
bits counting on from it; every bit above `nbits` is 0. -/
def tableWords (nbits w : Nat) : List Word :=
  let bits := w % 2 ^ nbits
  let head := BitVec.ofNat 32 bits
  head :: (List.range (headLength head - 1)).map (fun k => BitVec.ofNat 32 (bits >>> (32 * (k + 1))))

/-- The command the decoder reads from an opcode-table word. -/
def decodeTableWord (nbits w : Nat) : Option Instr :=
  match decode (tableWords nbits w) with
  | .command i _ => some i
  | .illegal _ => none
  | .wait => none

end Sys2Proof
end

