-- ==== Sys2Proof/Machine/State.lean ====
section
/-! DEFINITION. The state of the block (R20 to R35), its reset values (R42), the model's own fields for what lies outside
the block (parameters, presented events, answers of bus reads), and the reasons a step can stop. -/

namespace Sys2Proof.Machine

/-- R20: the Fault State `FS`. -/
inductive FaultState where
  | running
  | faulted
  deriving DecidableEq, Repr

/-- R23: the control state `MODE`. -/
inductive Mode where
  | fetch
  | execHarvest
  | execTransmit
  | idle
  | blink
  deriving DecidableEq, Repr

/-- R27: the harvest engine's phase. -/
inductive HarvestPhase where
  | poll
  | read
  deriving DecidableEq, Repr

/-- R32: the transmit engine's phase. -/
inductive TransmitPhase where
  | poll
  | write
  deriving DecidableEq, Repr

/-- R33: the blink engine's phase. -/
inductive BlinkPhase where
  | writeOn
  | delayOn
  | writeOff
  | delayOff
  deriving DecidableEq, Repr

/-- R14, R35: one entry of the bus history. -/
inductive BusEvent where
  /-- `Rd(addr, v)`. -/
  | rd (addr v : Word)
  /-- `Wr(addr, v)`. -/
  | wr (addr v : Word)
  /-- The marker `Reset`. -/
  | reset
  deriving DecidableEq, Repr

/-- R39: the four events a step can be. -/
inductive Event where
  | reset
  | faultReq
  | push (ws : List Word)
  | tick
  deriving DecidableEq, Repr

/-- What the environment presents to the block at one step (R38, R39, R214): either the requester pushes words, or the
two event inputs `reset` and `fault_req` stand as given, each presented or not, with a tick always offered beside them
(log entries 4 and 5). -/
inductive Input where
  | push (ws : List Word)
  | present (reset faultReq : Bool)
  deriving DecidableEq, Repr

/-- The state: the block's fields under the names of R20 to R35, the queue `PROG` (R80), and four fields of the model's
own (the last four), which stand for what is outside the block. -/
structure State where
  /-- R20 `FS`. -/
  fs : FaultState
  /-- R21 `FCAUSE`, a ghost: `none` while running. -/
  fcause : Option FaultCause
  /-- R22 `PC`: the index in `prog` of the current command's first word. -/
  pc : Nat
  /-- R23 `MODE`. -/
  mode : Mode
  /-- R24 `RDATA`: the value of the most recent PEEK. -/
  rdata : Option Word
  /-- R25 `RESP`: every PEEK's value, in execution order. -/
  resp : List Word
  /-- R26 `HV_K`: the entropy words stored by the current or last harvest. -/
  hvK : Nat
  /-- R27 `HV_PH`. -/
  hvPh : HarvestPhase
  /-- R28 `ENT_BUF`: 32 cells, each a byte or holding no value. -/
  entBuf : Vector (Option Byte) 32
  /-- R29 `ENT_VALID`. -/
  entValid : Bool
  /-- R30 `TX_BUF`. -/
  txBuf : List Byte
  /-- R31 `TX_I`. -/
  txI : Nat
  /-- R32 `TX_PH`. -/
  txPh : TransmitPhase
  /-- R33 `BL_PH`. -/
  blPh : BlinkPhase
  /-- R34 `BL_CNT`. -/
  blCnt : Nat
  /-- R35 `HIST`, oldest event first. -/
  hist : List BusEvent
  /-- R80 `PROG`, the command queue. -/
  prog : List Word
  /-- R11: the parameters, which no step changes. -/
  params : Params
  /-- The environment's presentations at the coming steps, one a step; past its end every step is offered a tick alone
  (log entry 4). -/
  inputs : List Input
  /-- R60: the answers of the coming bus reads, one a read; past its end a read answers a free value (log entry 3). -/
  draws : List Word
  /-- The number of bus reads made so far, which selects the free value of a read (log entry 3). -/
  drawn : Nat
  deriving DecidableEq, Repr

/-- Why the machine stops in a state that no rule of R39's table covers. All are safe (log entry 7): no state that meets
the invariants of R22, R26, R31 and R43 raises one. -/
inductive Fault where
  /-- Raised by a tick: `FS = RUNNING` with `MODE = BLINK`, or `FS = FAULTED` with another mode; R39's table has no row. Safe. -/
  | noRule
  /-- Raised by a tick in `FETCH`: `PC` lies beyond the queue, outside R22's range. Safe. -/
  | pcBeyondQueue
  /-- Raised by the harvest engine's read step: `HV_K` is 8 or more, so there is no unfilled slice (R26, R43.4). Safe. -/
  | noUnfilledSlice
  /-- Raised by the transmit engine's write step: `TX_I` is no index of `TX_BUF` (R43.5). Safe. -/
  | noByteToSend
  deriving DecidableEq, Repr

/-- Why the model gives no answer. -/
inductive Refusal where
  /-- Raised by `exec` for a command without a meaning; no arm does. Safe. -/
  | notModelled (mnemonic : String)
  /-- Raised by every step: the parameters fail R54 (or `PROG0` exceeds R11's bound, log entry
  11), so no step is defined. Safe. -/
  | badConfiguration
  /-- Raised by a push that would make the queue longer than 2^32 - 1 words (R11; log entry 11). Safe. -/
  | queueTooLong
  /-- Raised by a read of `ent_out` while `ENT_VALID = 0` (R40, R250); not by a step. Safe. -/
  | entOutNotValid
  deriving DecidableEq, Repr

/-- R42: the state after power-on with the parameters `p`. -/
def State.boot (p : Params) : State where
  fs := .running
  fcause := none
  pc := 0
  mode := .fetch
  rdata := none
  resp := []
  hvK := 0
  hvPh := .poll
  entBuf := Vector.replicate 32 none
  entValid := false
  txBuf := []
  txI := 0
  txPh := .poll
  blPh := .writeOn
  blCnt := 0
  hist := [.reset]
  prog := p.prog0
  params := p
  inputs := []
  draws := []
  drawn := 0

/-- R42 with the parameters log entry 1 names. -/
def State.reset : State := State.boot Config.params

end Sys2Proof.Machine
end

