-- ==== Sys2Proof/Machine/Ops.lean ====
section
/-! DEFINITION. The operations every rule is written in (R14): bus reads and writes, completion of a command, fault entry,
and the events that are not ticks: reset, the only way out of a fault, and push. -/

namespace Sys2Proof.Machine

/-- R60: the value the next bus read returns, a draw. -/
def draw (s : State) : Word :=
  match s.draws with
  | [] => Config.freeRead s.drawn
  | v :: _ => v

/-- R14 `MemRead`: the state after one 32-bit read of the register of `h`; the value read is `draw s`. -/
def memRead (h : Handle) (s : State) : State :=
  { s with
    hist := s.hist ++ [.rd (h.addr s.params) (draw s)]
    draws := s.draws.tail
    drawn := s.drawn + 1 }

/-- R14 `MemWrite`: one 32-bit write of `v` to the register of `h`. -/
def memWrite (h : Handle) (v : Word) (s : State) : State :=
  { s with hist := s.hist ++ [.wr (h.addr s.params) v] }

/-- R93 `complete(len)`. -/
def complete (len : Nat) (s : State) : State :=
  { s with pc := s.pc + len, mode := .fetch }

/-- R204 `raise Fault(c)`: fault entry. A fault while faulted has no effect (R213). -/
def raiseFault (c : FaultCause) (s : State) : State :=
  match s.fs with
  | .faulted => s
  | .running =>
    { s with
      fs := .faulted
      fcause := some c
      entValid := false
      mode := .blink
      blPh := .writeOn
      blCnt := 0 }

/-- R240: the reset event. Every field takes its value of R42, and `HIST` keeps its events and gains the marker. The
fields that stand for the world outside the block are not the block's to reset (log entry 6). -/
def resetEvent (s : State) : State :=
  { State.boot s.params with
    hist := s.hist ++ [.reset]
    inputs := s.inputs
    draws := s.draws
    drawn := s.drawn }

/-- R39, R40, R68: the push event appends words to the queue and changes no other field; R11 bounds the queue. -/
def pushWords (ws : List Word) (s : State) : Host.Outcome State Fault Refusal :=
  if s.prog.length + ws.length ≤ queueLimit then .next { s with prog := s.prog ++ ws }
  else .refused .queueTooLong

/-- R214: of the events presented at this step, the one taken: reset before fault_req before tick. One presented and not
taken is gone (R215; log entry 16). -/
def nextEvent (s : State) : Event :=
  match s.inputs with
  | [] => .tick
  | .push ws :: _ => .push ws
  | .present reset faultReq :: _ => if reset then .reset else if faultReq then .faultReq else .tick

/-- The presentation of this step is over. -/
def popInput (s : State) : State := { s with inputs := s.inputs.tail }

end Sys2Proof.Machine
end

