-- ==== Sys2Proof/Machine/Blink.lean ====
section
/-! DEFINITION. The fault handler's LED blink engine (R207 to R211). -/

namespace Sys2Proof.Machine

/-- R10 `LED_ON`: the red bit. -/
def ledOn : Word := 0x00000004#32

/-- R10: the off pattern. -/
def ledOff : Word := 0x00000000#32

/-- R207, R209: write a pattern and start the delay that follows it. -/
def blinkWrite (pattern : Word) (after : BlinkPhase) (s : State) : State :=
  { memWrite .led pattern s with blCnt := s.params.blinkDelay, blPh := after }

/-- R208, R210: one iteration of the busy-wait, no bus access. -/
def blinkDelay (after : BlinkPhase) (s : State) : State :=
  if s.blCnt = 0 then { s with blPh := after } else { s with blCnt := s.blCnt - 1 }

/-- R207 to R210: the blink engine's tick, always enabled. -/
def blinkTick (s : State) : State :=
  match s.blPh with
  | .writeOn => blinkWrite ledOn .delayOn s
  | .delayOn => blinkDelay .writeOff s
  | .writeOff => blinkWrite ledOff .delayOff s
  | .delayOff => blinkDelay .writeOn s

end Sys2Proof.Machine
end

