-- ==== Sys2Proof/Machine/Harvest.lean ====
section
/-! DEFINITION. The TRNG harvest engine: the command HARVEST and its two engine steps (R150 to R161). -/

namespace Sys2Proof.Machine

/-- R9 `WORDS`. -/
def harvestWords : Nat := 8

/-- R150 HARVEST: the earlier buffer is discarded and the engine starts; no bus access. -/
def execHarvest (s : State) : Host.Outcome State Fault Refusal :=
  .next { s with
    entValid := false
    entBuf := Vector.replicate 32 none
    hvK := 0
    hvPh := .poll
    mode := .execHarvest }

/-- R151: the poll step. Only bit 0 of the status counts (R160); no limit (R157). -/
def harvestPoll (s : State) : State :=
  { memRead .trngStatus s with hvPh := if trngReady (draw s) then .read else .poll }

/-- R152: the buffer with the word `w` in its slice `k`, most significant byte first (R153). -/
def storeSlice (k : Nat) (w : Word) (buf : Vector (Option Byte) 32) : Vector (Option Byte) 32 :=
  (((buf.setIfInBounds (4 * k) (some (beByte w 0))).setIfInBounds (4 * k + 1) (some (beByte w 1))).setIfInBounds
    (4 * k + 2) (some (beByte w 2))).setIfInBounds (4 * k + 3) (some (beByte w 3))

/-- R152: one entropy word read and stored in the next unfilled slice. -/
def harvestStore (s : State) : State :=
  { memRead .trngEntropy s with
    entBuf := storeSlice s.hvK (draw s) s.entBuf
    hvK := s.hvK + 1 }

/-- R152: after a word is stored, poll for the next one, or with the eighth make the buffer valid (R154) and complete;
the phase then stays `READ`. -/
def harvestAdvance (s : State) : State :=
  if s.hvK = harvestWords then complete 1 { s with entValid := true } else { s with hvPh := .poll }

/-- R152: the read step. `HV_K` of 8 or more is outside R43.4. -/
def harvestRead (s : State) : Host.Outcome State Fault Refusal :=
  if s.hvK < harvestWords then .next (harvestAdvance (harvestStore s)) else .fault .noUnfilledSlice

/-- R39: the harvest engine's tick. -/
def harvestTick (s : State) : Host.Outcome State Fault Refusal :=
  match s.hvPh with
  | .poll => .next (harvestPoll s)
  | .read => harvestRead s

end Sys2Proof.Machine
end

