-- ==== Sys2Proof/Machine/Mmio.lean ====
section
/-! DEFINITION. The MMIO register access layer: PEEK and POKE (R110 to R113). -/

namespace Sys2Proof.Machine

/-- R110 PEEK. Decode never answers a PEEK of a write-only register; the term that names one takes the fault decode
raises for it, cause 4 (R88; log entry 9). -/
def execPeek (h : Handle) (s : State) : Host.Outcome State Fault Refusal :=
  if h.canRead then
    let v := draw s
    .next (complete 1 { memRead h s with rdata := some v, resp := s.resp ++ [v] })
  else .next (raiseFault .access s)

/-- R111 POKE. As for PEEK, the term that names a read-only register takes cause 4 (R88; log entry 9). -/
def execPoke (h : Handle) (v : Word) (s : State) : Host.Outcome State Fault Refusal :=
  if h.canWrite then .next (complete 2 (memWrite h v s))
  else .next (raiseFault .access s)

end Sys2Proof.Machine
end

