-- ==== Sys2Proof/Machine/System.lean ====
section
/-! DEFINITION. The system commands IDLE and FAULT (R180, R181). -/

namespace Sys2Proof.Machine

/-- R180 IDLE: `PC` keeps the index of this command. -/
def execIdle (s : State) : Host.Outcome State Fault Refusal :=
  .next { s with mode := .idle }

/-- R181 FAULT: fault entry with cause 1; the command never completes. -/
def execFault (s : State) : Host.Outcome State Fault Refusal :=
  .next (raiseFault .software s)

end Sys2Proof.Machine
end

