-- ==== Sys2Proof/Machine/Transmit.lean ====
section
/-! DEFINITION. The UART transmit controller: the command TRANSMIT and its two engine steps (R130 to R136). -/

namespace Sys2Proof.Machine

/-- R130 TRANSMIT; the empty payload completes at once with no bus access (R134). A payload of more than
65535 bytes has no encoding, so decode never answers one; the term runs like any other (log entry 14). -/
def execTransmit (bytes : List Byte) (s : State) : Host.Outcome State Fault Refusal :=
  match bytes with
  | [] => .next (complete 1 s)
  | _ :: _ => .next { s with txBuf := bytes, txI := 0, txPh := .poll, mode := .execTransmit }

/-- R131: the poll step. It stays in `POLL` without limit while the status is zero (R135). -/
def transmitPoll (s : State) : State :=
  { memRead .uartTxStatus s with txPh := if txReady (draw s) then .write else .poll }

/-- R132: one byte written, zero-extended (R58). -/
def transmitSend (b : Byte) (s : State) : State :=
  { memWrite .uartTxData (zextByte b) s with txI := s.txI + 1 }

/-- R132: after a byte is written, poll for the next one, or with the last complete; the phase then stays `WRITE`. -/
def transmitAdvance (s : State) : State :=
  if s.txI = s.txBuf.length then complete (1 + payloadWords s.txBuf.length) s else { s with txPh := .poll }

/-- R132: the write step. `TX_I` beyond the payload is outside R43.5. -/
def transmitWrite (s : State) : Host.Outcome State Fault Refusal :=
  match s.txBuf[s.txI]? with
  | none => .fault .noByteToSend
  | some b => .next (transmitAdvance (transmitSend b s))

/-- R39: the transmit engine's tick. -/
def transmitTick (s : State) : Host.Outcome State Fault Refusal :=
  match s.txPh with
  | .poll => .next (transmitPoll s)
  | .write => transmitWrite s

end Sys2Proof.Machine
end

