-- ==== Sys2Proof/Machine/Dispatch.lean ====
section
/-! DEFINITION. One arm per command: what the fetch step runs after decode succeeds (R92). -/

namespace Sys2Proof.Machine

def exec (i : Instr) (s : State) : Host.Outcome State Fault Refusal :=
  match i with
  | .idle => Sys2Proof.Machine.execIdle s
  | .peek h => Sys2Proof.Machine.execPeek h s
  | .poke h v => Sys2Proof.Machine.execPoke h v s
  | .harvest => Sys2Proof.Machine.execHarvest s
  | .transmit bytes => Sys2Proof.Machine.execTransmit bytes s
  | .fault => Sys2Proof.Machine.execFault s

end Sys2Proof.Machine
end

