-- ==== Sys2Proof/Machine/Events.lean ====
section
/-! DEFINITION. The fetch step (R92), the tick (R39), the step relation over the four events (R39, R214), and the placing
of a command where the next step fetches it. -/

namespace Sys2Proof.Machine

/-- R92: the fetch step. When decode answers WAIT there is none: nothing changes (R182). `PC` beyond the queue is outside
R22. -/
def fetchTick (s : State) : Host.Outcome State Fault Refusal :=
  match decodeAt s.prog s.pc with
  | .command i _ => exec i s
  | .illegal c => .next (raiseFault c s)
  | .wait => if s.pc ≤ s.prog.length then .next s else .fault .pcBeyondQueue

/-- R39: a tick is enabled in every state but the idle state and the wait state. -/
def tickEnabled (s : State) : Bool :=
  match s.fs, s.mode with
  | .running, .idle => false
  | .running, .fetch => decide (decodeAt s.prog s.pc ≠ .wait)
  | _, _ => true

/-- R39: the one rule the state selects. A tick offered where none is enabled changes nothing (R182, R183; log entry
8). -/
def tick (s : State) : Host.Outcome State Fault Refusal :=
  match s.fs, s.mode with
  | .running, .fetch => fetchTick s
  | .running, .execHarvest => harvestTick s
  | .running, .execTransmit => transmitTick s
  | .running, .idle => .next s
  | .running, .blink => .fault .noRule
  | .faulted, .blink => .next (blinkTick s)
  | .faulted, _ => .fault .noRule

/-- R39: the step that is the event `e`. -/
def takeEvent (e : Event) (s : State) : Host.Outcome State Fault Refusal :=
  match e with
  | .reset => .next (resetEvent s)
  | .faultReq => .next (raiseFault .external s)
  | .push ws => pushWords ws s
  | .tick => tick s

/-- One step of the system: R54 refuses ill-formed parameters, R214 picks the event, R39 says what it does. -/
def systemStep (s : State) : Host.Outcome State Fault Refusal :=
  if s.params.ok then takeEvent (nextEvent s) (popInput s) else .refused .badConfiguration

/-- The state with the words `ws` where the next step fetches: the queue holds them from `PC` on, the block is running and
about to fetch, a tick alone is presented, and the parameters are well formed (log entry 2). -/
def placeCommand (ws : List Word) (s : State) : State :=
  { s with
    fs := .running
    fcause := none
    mode := .fetch
    prog := (s.prog ++ List.replicate (s.pc - s.prog.length) 0#32).take s.pc ++ ws
    params := if s.params.ok then s.params else Config.params
    inputs := [] }

end Sys2Proof.Machine
end

