-- ==== Sys2Proof/Machine/Step.lean ====
section
/-! DEFINITION. The step function and the placing of a command where it fetches next. -/

namespace Sys2Proof.Machine

/-- R39: one step of the system. -/
def step (s : State) : Host.Outcome State Fault Refusal := systemStep s

/-- `s` with the command of the opcode-table word `w` where the next step fetches. -/
def State.withFetchWord (s : State) (nbits w : Nat) : State := placeCommand (tableWords nbits w) s

end Sys2Proof.Machine
end

