-- ==== Sys2Proof/Machine/Assembler.lean ====
section
/-! DEFINITION. The assembler of R94 and the pseudo-instructions of R95, from text to queue words. Points the two rules
leave open are in log entry 10. -/

namespace Sys2Proof.Machine

/-- R94, R95: one line of assembler text. -/
inductive AsmLine where
  | idle
  | peek (h : Handle)
  | poke (h : Handle) (v : Word)
  | harvest
  | transmit (bytes : List Byte)
  | fault
  /-- `.word imm32`: the word itself. -/
  | word (v : Word)
  | nop
  | txbyte (b : Byte)
  | led (v : Word)
  | ledRed
  | ledOff
  deriving DecidableEq, Repr

/-- R95: a pseudo-instruction's expansion; any other line is its own. -/
def AsmLine.expand : AsmLine → AsmLine
  | .nop => .transmit []
  | .txbyte b => .transmit [b]
  | .led v => .poke .led v
  | .ledRed => .poke .led 0x4
  | .ledOff => .poke .led 0x0
  | line => line

/-- R94: the words of a line. The assembler checks no access right: `peek LED` has an encoding, which decoding faults on
(program P3 of 95_test_vectors.md). -/
def AsmLine.words (line : AsmLine) : List Word :=
  match line.expand with
  | .idle => encode .idle
  | .peek h => encode (.peek h)
  | .poke h v => encode (.poke h v)
  | .harvest => encode .harvest
  | .transmit bytes => encode (.transmit bytes)
  | .fault => encode .fault
  | .word v => [v]
  | .nop | .txbyte _ | .led _ | .ledRed | .ledOff => []

/-- R53: the name of a handle. -/
def handleName : Handle → List Char
  | .uartBitRate => "UART_BIT_RATE".toList
  | .uartDataBits => "UART_DATA_BITS".toList
  | .uartStopBits => "UART_STOP_BITS".toList
  | .uartRxStatus => "UART_RX_STATUS".toList
  | .uartRxData => "UART_RX_DATA".toList
  | .uartRxCount => "UART_RX_COUNT".toList
  | .uartTxStatus => "UART_TX_STATUS".toList
  | .uartTxData => "UART_TX_DATA".toList
  | .trngStatus => "TRNG_STATUS".toList
  | .trngEntropy => "TRNG_ENTROPY".toList
  | .led => "LED".toList

/-- R94: the handle of a name. -/
def namedHandle (name : List Char) : Option Handle := Handle.all.find? (fun h => handleName h == name)

/-- The value of a digit, hexadecimal ones included. -/
def digitValue (c : Char) : Option Nat :=
  if '0' ≤ c ∧ c ≤ '9' then some (c.toNat - '0'.toNat)
  else if 'a' ≤ c ∧ c ≤ 'f' then some (c.toNat - 'a'.toNat + 10)
  else if 'A' ≤ c ∧ c ≤ 'F' then some (c.toNat - 'A'.toNat + 10)
  else none

/-- The number the digits of a base write, after the ones already read. -/
def digitsValue (base : Nat) : List Char → Nat → Option Nat
  | [], n => some n
  | c :: cs, n =>
    match digitValue c with
    | some d => if d < base then digitsValue base cs (n * base + d) else none
    | none => none

/-- R94: a number is decimal or `0x` hexadecimal. -/
def numberValue : List Char → Option Nat
  | [] => none
  | '0' :: 'x' :: d :: ds => digitsValue 16 (d :: ds) 0
  | cs => digitsValue 10 cs 0

/-- A token of a line. -/
inductive AsmToken where
  /-- A keyword, a handle name or a number. -/
  | name (cs : List Char)
  /-- A string, as the bytes it stands for. -/
  | text (bytes : List Byte)
  | comma
  | openBracket
  | closeBracket
  deriving DecidableEq, Repr

/-- The character that opens and closes a string. -/
def quoteChar : Char := Char.ofNat 34

/-- R94: the code of a plain character of a string, which is its ASCII code. -/
def asciiByte (c : Char) : Option Byte := if c.toNat < 128 then some (BitVec.ofNat 8 c.toNat) else none

/-- The bytes of a string and what follows its closing quote: `\r`, `\n` and `\xHH` are the bytes R94 names, every other
character its ASCII code. R94 does not say what `\x` without two hexadecimal digits after it is; wherever it stands in the
string, its end included, it is refused, and a backslash before any other character is itself a character (DESIGN CHOICE,
log entry 10). -/
def lexString : List Char → Option (List Byte × List Char)
  | [] => none
  | '\\' :: 'r' :: cs => (lexString cs).map (fun (bs, rest) => (0x0D :: bs, rest))
  | '\\' :: 'n' :: cs => (lexString cs).map (fun (bs, rest) => (0x0A :: bs, rest))
  | '\\' :: 'x' :: a :: b :: cs =>
    match digitValue a, digitValue b with
    | some hi, some lo => (lexString cs).map (fun (bs, rest) => (BitVec.ofNat 8 (16 * hi + lo) :: bs, rest))
    | _, _ => none
  | '\\' :: 'x' :: _ => none
  | c :: cs =>
    if c = quoteChar then some ([], cs)
    else
      match asciiByte c, lexString cs with
      | some b, some (bs, rest) => some (b :: bs, rest)
      | _, _ => none

/-- A character of a keyword, a handle name or a number. -/
def nameChar (c : Char) : Bool := c.isAlphanum || c == '_' || c == '.'

/-- The tokens of one line, the first argument bounding their number. R94: `;` starts a comment. -/
def lexLine : Nat → List Char → Option (List AsmToken)
  | _, [] => some []
  | 0, _ :: _ => none
  | k + 1, c :: cs =>
    if c = ';' then some []
    else if c = ' ' ∨ c = '\t' ∨ c = '\r' then lexLine k cs
    else if c = ',' then (lexLine k cs).map (AsmToken.comma :: ·)
    else if c = '[' then (lexLine k cs).map (AsmToken.openBracket :: ·)
    else if c = ']' then (lexLine k cs).map (AsmToken.closeBracket :: ·)
    else if c = quoteChar then
      match lexString cs with
      | some (bs, rest) => (lexLine k rest).map (AsmToken.text bs :: ·)
      | none => none
    else if nameChar c then
      (lexLine k (cs.dropWhile nameChar)).map (AsmToken.name (c :: cs.takeWhile nameChar) :: ·)
    else none

/-- A number below a bound. -/
def boundedNumber (bound : Nat) (cs : List Char) : Option Nat :=
  match numberValue cs with
  | some n => if n < bound then some n else none
  | none => none

/-- R94: a 32-bit number. -/
def wordNumber (cs : List Char) : Option Word := (boundedNumber (2 ^ 32) cs).map (BitVec.ofNat 32)

/-- A byte written as a number. -/
def byteNumber (cs : List Char) : Option Byte := (boundedNumber 256 cs).map (BitVec.ofNat 8)

/-- The bytes of `b0, b1, ...]` after the opening bracket, at least one. -/
def byteListTail : List AsmToken → Option (List Byte)
  | [.name cs, .closeBracket] => (byteNumber cs).map (fun b => [b])
  | .name cs :: .comma :: rest =>
    match byteNumber cs, byteListTail rest with
    | some b, some bs => some (b :: bs)
    | _, _ => none
  | _ => none

/-- R94: the payload operand of `transmit`. -/
def payloadOperand : List AsmToken → Option (List Byte)
  | [.text bytes] => some bytes
  | [.openBracket, .closeBracket] => some []
  | .openBracket :: rest => byteListTail rest
  | _ => none

/-- R94, R95: the line of a keyword and its operand tokens. -/
def parseCommand (keyword : List Char) (operands : List AsmToken) : Option AsmLine :=
  if keyword = "transmit".toList then
    match payloadOperand operands with
    | some bytes => if bytes.length ≤ maxPayload then some (.transmit bytes) else none
    | none => none
  else
    match operands with
    | [] =>
      if keyword = "idle".toList then some .idle
      else if keyword = "harvest".toList then some .harvest
      else if keyword = "fault".toList then some .fault
      else if keyword = "nop".toList then some .nop
      else if keyword = "led_red".toList then some .ledRed
      else if keyword = "led_off".toList then some .ledOff
      else none
    | [.name a] =>
      if keyword = "peek".toList then (namedHandle a).map AsmLine.peek
      else if keyword = "led".toList then (wordNumber a).map AsmLine.led
      else if keyword = "txbyte".toList then (byteNumber a).map AsmLine.txbyte
      else if keyword = ".word".toList then (wordNumber a).map AsmLine.word
      else none
    | [.name a, .comma, .name b] =>
      if keyword = "poke".toList then
        match namedHandle a, wordNumber b with
        | some h, some v => some (.poke h v)
        | _, _ => none
      else none
    | _ => none

/-- R94: the words of one line of text; a blank or comment line has none, and `none` is a line outside the rules. -/
def assembleLine (text : List Char) : Option (List Word) :=
  match lexLine text.length text with
  | some [] => some []
  | some (.name keyword :: operands) => (parseCommand keyword operands).map AsmLine.words
  | _ => none

/-- R94: one command per line, the words of all lines in order. -/
def assemble : List (List Char) → Option (List Word)
  | [] => some []
  | line :: lines =>
    match assembleLine line, assemble lines with
    | some ws, some rest => some (ws ++ rest)
    | _, _ => none

end Sys2Proof.Machine
end

