-- ==== Sys2Proof/Machine/Ports.lean ====
section
/-! DEFINITION. What the ports show (R38, R40): the bus port in the step that makes an access, `ent_out`, `ent_valid` and
`resp`, each a view of the state (log entry 13). -/

namespace Sys2Proof.Machine

/-- R38: the bus port in a step with an access: `addr`, `we`, and `wdata` of a write or `rdata` of a read. -/
structure BusPort where
  addr : Word
  we : Bool
  data : Word
  deriving DecidableEq, Repr

/-- R38, R62: the port's values in the step that appends the event; a reset makes no access (R240). -/
def busPort : BusEvent → Option BusPort
  | .rd a v => some ⟨a, false, v⟩
  | .wr a v => some ⟨a, true, v⟩
  | .reset => none

/-- R38: the accesses shown between two states of a run, the first an earlier one. -/
def portTrace (before after : State) : List BusPort := (after.hist.drop before.hist.length).filterMap busPort

/-- R38 `ent_valid`. -/
def entValidPort (s : State) : Bool := s.entValid

/-- R38, R40: the requester's read of `ent_out`. It is refused while `ENT_VALID = 0`, never answered with a partial
buffer (R250). A valid buffer with an empty cell is outside R43.3 and refused too. -/
def readEntOut (s : State) : Except Refusal (List Byte) :=
  if s.entValid then
    match s.entBuf.toList.mapM id with
    | some bytes => .ok bytes
    | none => .error .entOutNotValid
  else .error .entOutNotValid

/-- R38 `resp`: readable at any time (R40). -/
def respPort (s : State) : List Word := s.resp

end Sys2Proof.Machine
end

