-- ==== Sys2Proof/Safety.lean ====
section
/-! DEFINITION. The terms claims are stated in: the ends and waits of a run (R41, R182), the invariants of R43 with the
ranges of R22 to R34, the legal bus events (R113), and the peripherals' answers to one whole command (R133, R156). -/

namespace Sys2Proof.Machine

/-- R41: the run has ended normally. -/
def State.endedNormally (s : State) : Prop := s.fs = .running ∧ s.mode = .idle

/-- R182: the block waits for the requester. -/
def State.waiting (s : State) : Prop := s.fs = .running ∧ s.mode = .fetch ∧ decodeAt s.prog s.pc = .wait

/-- R39, R214: the coming step is a tick, under parameters a step is defined for (R54). -/
def State.atTick (s : State) : Prop := s.params.ok = true ∧ nextEvent s = .tick

/-- R92: the coming step is a fetch step. -/
def State.atFetch (s : State) : Prop := s.atTick ∧ s.fs = .running ∧ s.mode = .fetch

/-- R204: what fault entry with the cause `c` makes of a running state. -/
def State.enteredFault (c : FaultCause) (s : State) : State :=
  { s with fs := .faulted, fcause := some c, entValid := false, mode := .blink, blPh := .writeOn, blCnt := 0 }

/-- R84: payload byte `j` of the words `ws` after the head word. -/
def payloadByte (ws : List Word) (j : Nat) : Byte := (ws.getD (j / 4) 0#32).extractLsb' (24 - 8 * (j % 4)) 8

/-- The invariants of R43, points 1 to 5, with what makes them inductive: the ranges of R22, R26, R30, R31 and R34, and
that `PC` holds the index of the command in execution (R22, R93, R180). -/
structure State.Inv (s : State) : Prop where
  /-- R43.1. -/
  faulted_iff_blink : s.fs = .faulted ↔ s.mode = .blink
  /-- R43.2. -/
  no_cause_iff_running : s.fcause = none ↔ s.fs = .running
  /-- R43.3. -/
  valid_full : s.entValid = true → ∀ (i : Nat) (h : i < 32), s.entBuf[i].isSome = true
  /-- R29, R204, R205: no buffer is valid after a fault. -/
  faulted_hidden : s.fs = .faulted → s.entValid = false
  /-- R29: a valid buffer holds all eight words. -/
  valid_eight : s.entValid = true → s.hvK = 8
  /-- R43.4. -/
  harvest_partial : s.mode = .execHarvest →
    s.entValid = false ∧ s.hvK < 8 ∧ ∀ (i : Nat) (h : i < 32), s.entBuf[i].isSome = decide (i < 4 * s.hvK)
  /-- R43.5. -/
  transmit_index : s.mode = .execTransmit → s.txI < s.txBuf.length
  /-- R22: the command in execution is the one at `PC`. -/
  harvest_command : s.mode = .execHarvest → decodeAt s.prog s.pc = .command .harvest 1
  transmit_command : s.mode = .execTransmit →
    decodeAt s.prog s.pc = .command (.transmit s.txBuf) (1 + payloadWords s.txBuf.length)
  idle_command : s.mode = .idle → decodeAt s.prog s.pc = .command .idle 1
  /-- R22. -/
  pc_range : s.pc ≤ s.prog.length
  /-- R11. -/
  queue_range : s.prog.length ≤ queueLimit
  /-- R26. -/
  hvK_range : s.hvK ≤ 8
  /-- R30. -/
  txBuf_range : s.txBuf.length ≤ maxPayload
  /-- R31. -/
  txI_range : s.txI ≤ s.txBuf.length
  /-- R34. -/
  blCnt_range : s.blCnt ≤ s.params.blinkDelay
  /-- R24, R25: `RDATA` is the last entry of `RESP`. -/
  rdata_last : s.rdata = s.resp.getLast?

/-- R113: the event reads a readable register, writes a writable one, or is the reset marker. -/
def BusEvent.legal (p : Params) : BusEvent → Prop
  | .rd a _ => ∃ h : Handle, h.canRead = true ∧ a = h.addr p
  | .wr a _ => ∃ h : Handle, h.canWrite = true ∧ a = h.addr p
  | .reset => True

/-- R113: every event of the history is legal. -/
def State.histLegal (s : State) : Prop := ∀ e ∈ s.hist, e.legal s.params

/-- R246, R247: an engine about to read an entropy word or to write a byte has, as the newest event of the history, the
status read that found the peripheral ready. -/
structure State.PolledReady (s : State) : Prop where
  harvest_polled : s.mode = .execHarvest → s.hvPh = .read →
    ∃ v : Word, v[0] = true ∧ s.hist.getLast? = some (.rd (s.params.mmioBase ||| s.params.trngSel ||| 0x24#32) v)
  transmit_polled : s.mode = .execTransmit → s.txPh = .write →
    ∃ v : Word, v ≠ 0#32 ∧ s.hist.getLast? = some (.rd (s.params.mmioBase ||| s.params.uartSel ||| 0x100#32) v)

/-- The TRNG's answers for one entropy word (R156): statuses that are not ready, one that is, then the word. -/
structure HarvestRound where
  busy : List Word
  status : Word
  word : Word
  deriving DecidableEq, Repr

/-- R156: the statuses are as the poll of R151 needs them for the word to be read. -/
def HarvestRound.answers (r : HarvestRound) : Prop := (∀ b ∈ r.busy, b[0] = false) ∧ r.status[0] = true

/-- The values the round's reads draw, in order. -/
def HarvestRound.draws (r : HarvestRound) : List Word := r.busy ++ [r.status, r.word]

/-- R156: the round's bus events, in order. -/
def HarvestRound.events (p : Params) (r : HarvestRound) : List BusEvent :=
  (r.busy ++ [r.status]).map (BusEvent.rd (p.mmioBase ||| p.trngSel ||| 0x24#32))
    ++ [.rd (p.mmioBase ||| p.trngSel ||| 0x80#32) r.word]

/-- The UART's answers for one byte (R133): zero statuses, then a non-zero one. -/
structure TransmitRound where
  busy : List Word
  status : Word
  byte : Byte
  deriving DecidableEq, Repr

/-- R133: the statuses are as the poll of R131 needs them for the byte to be sent. -/
def TransmitRound.answers (r : TransmitRound) : Prop := (∀ b ∈ r.busy, b = 0#32) ∧ r.status ≠ 0#32

/-- The values the round's reads draw, in order. -/
def TransmitRound.draws (r : TransmitRound) : List Word := r.busy ++ [r.status]

/-- R133: the round's bus events, in order. -/
def TransmitRound.events (p : Params) (r : TransmitRound) : List BusEvent :=
  (r.busy ++ [r.status]).map (BusEvent.rd (p.mmioBase ||| p.uartSel ||| 0x100#32))
    ++ [.wr (p.mmioBase ||| p.uartSel ||| 0x104#32) (0#24 ++ r.byte)]

/-- One on-off period of the LED (R211): the two writes, in order. -/
def blinkPeriod (p : Params) : List BusEvent :=
  [.wr (p.mmioBase ||| p.ctrlSel ||| 0x24#32) 4#32, .wr (p.mmioBase ||| p.ctrlSel ||| 0x24#32) 0#32]

/-- The ticks of one round of a harvest (R156) or of a transmission (R133): its status reads, then its read or write. -/
def roundTicks (busy : List Word) : Nat := busy.length + 2

/-- `k` steps from `s`, stopping at the first that gives no next state. -/
def runSteps (k : Nat) (s : State) : Host.Outcome State Fault Refusal := Sys2Proof.core.run k s

end Sys2Proof.Machine
end

