-- ==== Sys2Proof/Certificates/Slice0/Obligations.lean ====
section
/-! DEFINITION. The statements for the provers. The fields draws, drawn and inputs in them are the model's own stand for
the bus answers and the presented events (log entries 3 and 4); no statement rests on their values. -/

open Sys2Proof Sys2Proof.Machine

/-! Encoding and decode (30_encoding.md). -/

/-- R83 to R86: the words the formats give a command decode to it, whatever follows them, with every operand at every
value the encoding admits, and R86 gives their number. -/
def Obligations.DecodeOfEncodeIsTheCommand : Prop :=
  ∀ (i : Instr) (rest : List Word), i.wellFormed = true →
    decode (encode i ++ rest) = .command i i.length ∧ (encode i).length = i.length

/-- Decision D10, "zero padding makes encodings unique": words that decode to a command are its encoding, and the command
has operands the spec gives it. -/
def Obligations.AcceptedWordsAreTheEncoding : Prop :=
  ∀ (ws : List Word) (i : Instr) (len : Nat), decode ws = .command i len →
    i.wellFormed = true ∧ len = i.length ∧ len ≤ ws.length ∧ ws.take len = encode i

/-- R68 with R88: once decode has an answer other than WAIT, no later push changes it. -/
def Obligations.LaterWordsKeepADecidedCommand : Prop :=
  ∀ (ws more : List Word), decode ws ≠ .wait → decode (ws ++ more) = decode ws

/-- R86: the length of a command is decided by its head word alone. -/
def Obligations.LengthIsDecidedByTheHeadWord : Prop :=
  ∀ (w : Word) (r₁ r₂ : List Word) (i₁ i₂ : Instr) (l₁ l₂ : Nat),
    decode (w :: r₁) = .command i₁ l₁ → decode (w :: r₂) = .command i₂ l₂ → l₁ = l₂

/-- R82, R83: words written out from the formats, one or more per command. The last line is about the model's helper
decodeTableWord: it takes an opcode-table word with the operand words after it filled with zeros (log entry 2). By R88 that
word alone is WAIT. -/
def Obligations.SpecWordsDecode : Prop :=
  decode [0x00000000#32] = .command .idle 1
    ∧ decode [0x15000000#32] = .command (.peek .uartRxCount) 1
    ∧ decode [0x19000000#32] = .command (.peek .trngEntropy) 1
    ∧ decode [0x2A000000#32, 0xFFFFFFFF#32] = .command (.poke .led 0xFFFFFFFF#32) 2
    ∧ decode [0x30000000#32] = .command .harvest 1
    ∧ decode [0x40000000#32] = .command (.transmit []) 1
    ∧ decode [0x40000005#32, 0x48656C6C#32, 0x6F000000#32] =
        .command (.transmit [0x48#8, 0x65#8, 0x6C#8, 0x6C#8, 0x6F#8]) 3
    ∧ decode [0xF0000000#32] = .command .fault 1
    ∧ decodeTableWord 32 0x40000002 = some (.transmit [0#8, 0#8])

/-- R89: reserved opcodes, every must-be-zero bit and the handles 11 to 15 are illegal, whatever words follow. -/
def Obligations.ReservedEncodingsAreIllegal : Prop :=
  ∀ (w : Word) (rest : List Word),
    (0x5 ≤ (w.extractLsb' 28 4).toNat ∧ (w.extractLsb' 28 4).toNat ≤ 0xE →
      decode (w :: rest) = .illegal .illegalCommand)
    ∧ ((w.extractLsb' 28 4 = 0x0#4 ∨ w.extractLsb' 28 4 = 0x3#4 ∨ w.extractLsb' 28 4 = 0xF#4)
        ∧ w.extractLsb' 0 28 ≠ 0#28 → decode (w :: rest) = .illegal .illegalCommand)
    ∧ ((w.extractLsb' 28 4 = 0x1#4 ∨ w.extractLsb' 28 4 = 0x2#4) ∧ w.extractLsb' 0 24 ≠ 0#24 →
        decode (w :: rest) = .illegal .illegalCommand)
    ∧ ((w.extractLsb' 28 4 = 0x1#4 ∨ w.extractLsb' 28 4 = 0x2#4) ∧ w.extractLsb' 0 24 = 0#24
        ∧ 11 ≤ (w.extractLsb' 24 4).toNat → decode (w :: rest) = .illegal .badHandle)
    ∧ (w.extractLsb' 28 4 = 0x4#4 ∧ w.extractLsb' 16 12 ≠ 0#12 → decode (w :: rest) = .illegal .illegalCommand)

/-- R88 format H on the eleven handles: a register without the capability is cause 4 at once; a PEEK is complete at its
head word; a POKE waits for its data word and takes it unchanged (R85). -/
def Obligations.PeekAndPokeDecodeByAccessRight : Prop :=
  ∀ (h : Handle) (rest : List Word) (v : Word),
    decode ((0x1#4 ++ h.number ++ 0#24) :: rest) =
        (if h = .uartTxData ∨ h = .led then .illegal .access else .command (.peek h) 1)
    ∧ decode [0x2#4 ++ h.number ++ 0#24] =
        (if h = .uartRxStatus ∨ h = .uartRxData ∨ h = .uartRxCount ∨ h = .uartTxStatus ∨ h = .trngStatus
          ∨ h = .trngEntropy then .illegal .access else .wait)
    ∧ decode ((0x2#4 ++ h.number ++ 0#24) :: v :: rest) =
        (if h = .uartRxStatus ∨ h = .uartRxData ∨ h = .uartRxCount ∨ h = .uartTxStatus ∨ h = .trngStatus
          ∨ h = .trngEntropy then .illegal .access else .command (.poke h v) 2)

/-- R84 with R88: `TRANSMIT n` waits for its payload words, takes byte `j` from word `j div 4`, most significant byte
first, and is illegal with a padding byte other than zero. -/
def Obligations.TransmitPayloadDecodes : Prop :=
  ∀ (n : BitVec 16) (ws : List Word),
    (ws.length < (n.toNat + 3) / 4 → decode ((0x4000#16 ++ n) :: ws) = .wait)
    ∧ ((n.toNat + 3) / 4 ≤ ws.length →
        (∀ j, n.toNat ≤ j → j < 4 * ((n.toNat + 3) / 4) → payloadByte ws j = 0#8) →
        decode ((0x4000#16 ++ n) :: ws) =
          .command (.transmit ((List.range n.toNat).map (payloadByte ws))) (1 + (n.toNat + 3) / 4))
    ∧ ((n.toNat + 3) / 4 ≤ ws.length →
        (∃ j, n.toNat ≤ j ∧ j < 4 * ((n.toNat + 3) / 4) ∧ payloadByte ws j ≠ 0#8) →
        decode ((0x4000#16 ++ n) :: ws) = .illegal .illegalCommand)

/-- R182 with R88: decode answers WAIT exactly when nothing is pushed, or the head word is a legal POKE or TRANSMIT whose
operand words are not all pushed. -/
def Obligations.DecodeWaitsExactlyForMissingWords : Prop :=
  ∀ ws : List Word, decode ws = .wait ↔
    ws = []
    ∨ (∃ h : Handle, h.canWrite = true ∧ ws = [0x2#4 ++ h.number ++ 0#24])
    ∨ (∃ (n : BitVec 16) (rest : List Word), ws = (0x4000#16 ++ n) :: rest ∧ rest.length < (n.toNat + 3) / 4)

/-- R94, R95: lines of the assembler, a pseudo-instruction of each kind among them. That the second line may begin with
blanks is the model's choice (log entry 10). -/
def Obligations.AssemblerLinesEncode : Prop :=
  assembleLine "idle".toList = some [0x00000000#32]
    ∧ assembleLine "  peek TRNG_STATUS ; status".toList = some [0x18000000#32]
    ∧ assembleLine "poke LED, 0x2".toList = some [0x2A000000#32, 0x00000002#32]
    ∧ assembleLine "harvest".toList = some [0x30000000#32]
    ∧ assembleLine "transmit [0x01, 2, 0x03, 0x04, 0x05]".toList =
        some [0x40000005#32, 0x01020304#32, 0x05000000#32]
    ∧ assembleLine ("transmit ".toList ++ [quoteChar] ++ "OK\\r\\n".toList ++ [quoteChar]) =
        some [0x40000004#32, 0x4F4B0D0A#32]
    ∧ assembleLine "fault".toList = some [0xF0000000#32]
    ∧ assembleLine ".word 0x60000000".toList = some [0x60000000#32]
    ∧ assembleLine "nop".toList = some [0x40000000#32]
    ∧ assembleLine "txbyte 0x0A".toList = some [0x40000001#32, 0x0A000000#32]
    ∧ assembleLine "led 7".toList = some [0x2A000000#32, 0x00000007#32]
    ∧ assembleLine "led_red".toList = some [0x2A000000#32, 0x00000004#32]
    ∧ assembleLine "led_off".toList = some [0x2A000000#32, 0x00000000#32]

/-! Registers and parameters (20_memory.md). -/

/-- R53 with R51 and R52: the number, address and access right of each of the eleven registers. -/
def Obligations.RegisterMapIsAsTabled : Prop :=
  (∀ h : Handle, h ∈ Handle.all) ∧ ∀ p : Params,
    Handle.all.map (fun h => (h.number.toNat, h.addr p, h.canRead, h.canWrite)) =
      [(0, p.mmioBase ||| p.uartSel ||| 0x40#32, true, true),
       (1, p.mmioBase ||| p.uartSel ||| 0x44#32, true, true),
       (2, p.mmioBase ||| p.uartSel ||| 0x48#32, true, true),
       (3, p.mmioBase ||| p.uartSel ||| 0x80#32, true, false),
       (4, p.mmioBase ||| p.uartSel ||| 0x84#32, true, false),
       (5, p.mmioBase ||| p.uartSel ||| 0x88#32, true, false),
       (6, p.mmioBase ||| p.uartSel ||| 0x100#32, true, false),
       (7, p.mmioBase ||| p.uartSel ||| 0x104#32, false, true),
       (8, p.mmioBase ||| p.trngSel ||| 0x24#32, true, false),
       (9, p.mmioBase ||| p.trngSel ||| 0x80#32, true, false),
       (10, p.mmioBase ||| p.ctrlSel ||| 0x24#32, false, true)]

/-- R54: no step is defined for parameters under which two registers alias or one is misaligned; with neither, and an
initial queue in R11's bound, no step is refused on their account. -/
def Obligations.IllFormedParametersAreRefused : Prop :=
  ∀ s : State,
    ((∃ h₁ h₂ : Handle, h₁ ≠ h₂ ∧ h₁.addr s.params = h₂.addr s.params)
      ∨ (∃ h : Handle, (h.addr s.params).extractLsb' 0 2 ≠ 0#2) → step s = .refused .badConfiguration)
    ∧ ((∀ h₁ h₂ : Handle, h₁ ≠ h₂ → h₁.addr s.params ≠ h₂.addr s.params) →
        (∀ h : Handle, (h.addr s.params).extractLsb' 0 2 = 0#2) → s.params.prog0.length ≤ 2 ^ 32 - 1 →
        step s ≠ .refused .badConfiguration)

/-! The fetch step and the six commands (30, 40, 41, 42, 43). -/

/-- R92: a fetch step runs the command decoded at `PC`; around it the step only ends the presentation of this step. -/
def Obligations.FetchStepRunsTheDecodedCommand : Prop :=
  ∀ (s : State) (i : Instr) (len : Nat), s.atFetch → decodeAt s.prog s.pc = .command i len →
    step s = exec i { s with inputs := s.inputs.tail }

/-- R92, R204: a fetch step whose decode answers a fault cause is fault entry with that cause and nothing else: no bus
access (R112), `PC` kept (R93). -/
def Obligations.FetchStepOfIllegalWordsEntersFault : Prop :=
  ∀ (s : State) (c : FaultCause), s.atFetch → decodeAt s.prog s.pc = .illegal c →
    step s = .next (State.enteredFault c { s with inputs := s.inputs.tail })

/-- R110: PEEK of a readable register makes one read there, stores the value drawn in `RDATA` and at the end of `RESP`,
completes with length 1, and changes nothing else. -/
def Obligations.PeekReadsTheRegister : Prop :=
  ∀ (h : Handle) (s : State), h ≠ .uartTxData → h ≠ .led →
    exec (.peek h) s = .next { s with
      hist := s.hist ++ [.rd (h.addr s.params) (draw s)]
      draws := s.draws.tail
      drawn := s.drawn + 1
      rdata := some (draw s)
      resp := s.resp ++ [draw s]
      pc := s.pc + 1
      mode := .fetch }

/-- R111: POKE of a writable register makes one write of the data word there, completes with length 2, and changes nothing
else. -/
def Obligations.PokeWritesTheRegister : Prop :=
  ∀ (h : Handle) (v : Word) (s : State),
    h = .uartBitRate ∨ h = .uartDataBits ∨ h = .uartStopBits ∨ h = .uartTxData ∨ h = .led →
    exec (.poke h v) s = .next { s with
      hist := s.hist ++ [.wr (h.addr s.params) v]
      pc := s.pc + 2
      mode := .fetch }

/-- R134: TRANSMIT of no bytes makes no bus access and completes in its fetch step; nothing else changes. -/
def Obligations.TransmitOfNothingCompletesAtOnce : Prop :=
  ∀ s : State, exec (.transmit []) s = .next { s with pc := s.pc + 1, mode := .fetch }

/-- R130: TRANSMIT of one byte or more starts the transmit engine at its first byte; no bus access, `PC` kept, nothing else
changed. R130 gives this for up to 65535 bytes; that a longer term, which has no encoding, runs the same way is the model's
choice (log entry 14). -/
def Obligations.TransmitStartsTheEngine : Prop :=
  ∀ (bytes : List Byte) (s : State), bytes ≠ [] →
    exec (.transmit bytes) s = .next { s with
      txBuf := bytes
      txI := 0
      txPh := .poll
      mode := .execTransmit }

/-- R150: HARVEST discards the buffer and starts the harvest engine; no bus access, `PC` kept, nothing else changed. -/
def Obligations.HarvestStartsTheEngine : Prop :=
  ∀ s : State, ∃ t : State, exec .harvest s = .next t
    ∧ (∀ (i : Nat) (h : i < 32), t.entBuf[i] = none)
    ∧ t = { s with
        entBuf := t.entBuf
        entValid := false
        hvK := 0
        hvPh := .poll
        mode := .execHarvest }

/-- R180: IDLE changes the mode and nothing else; `PC` keeps its index. -/
def Obligations.IdleStopsAtItsIndex : Prop :=
  ∀ s : State, exec .idle s = .next { s with mode := .idle }

/-- R181: FAULT is fault entry with cause 1, without a bus access, in every running state. -/
def Obligations.FaultCommandEntersTheHandler : Prop :=
  ∀ s : State, s.fs = .running → exec .fault s = .next (State.enteredFault .software s)

/-- The model's own (log entry 9): a term that names a register without the capability, which decode never answers, takes
the fault entry with cause 4 that decoding its word raises. -/
def Obligations.TermWithoutCapabilityEntersFault : Prop :=
  ∀ (h : Handle) (v : Word) (s : State), s.fs = .running →
    (h.canRead = false → exec (.peek h) s = .next (State.enteredFault .access s))
    ∧ (h.canWrite = false → exec (.poke h v) s = .next (State.enteredFault .access s))

/-! The transmit engine (41_uart_transmit.md). -/

/-- R131: the poll step reads `UART_TX_STATUS` once; any non-zero word moves to `WRITE`, zero stays; nothing else. -/
def Obligations.TransmitPollStep : Prop :=
  ∀ s : State, s.atTick → s.fs = .running → s.mode = .execTransmit → s.txPh = .poll →
    step s = .next { s with
      inputs := s.inputs.tail
      hist := s.hist ++ [.rd (s.params.mmioBase ||| s.params.uartSel ||| 0x100#32) (draw s)]
      draws := s.draws.tail
      drawn := s.drawn + 1
      txPh := if draw s = 0#32 then .poll else .write }

/-- R132: the write step writes the next byte, zero-extended, and either polls again or completes with the command's
length; the phase then stays `WRITE`; nothing else. -/
def Obligations.TransmitWriteStep : Prop :=
  ∀ (s : State) (h : s.txI < s.txBuf.length), s.atTick → s.fs = .running → s.mode = .execTransmit →
    s.txPh = .write →
    step s = .next { s with
      inputs := s.inputs.tail
      hist := s.hist ++ [.wr (s.params.mmioBase ||| s.params.uartSel ||| 0x104#32) (0#24 ++ s.txBuf[s.txI])]
      txI := s.txI + 1
      txPh := if s.txI + 1 = s.txBuf.length then .write else .poll
      mode := if s.txI + 1 = s.txBuf.length then .fetch else .execTransmit
      pc := if s.txI + 1 = s.txBuf.length then s.pc + (1 + (s.txBuf.length + 3) / 4) else s.pc }

/-- The law the spec derives in R133: a TRANSMIT whose statuses become ready makes, byte by byte in order, its status reads
(all zero but the last) and then one write of the byte, and no other access; it takes the ticks of 95_test_vectors.md
section 2.4 and completes with its length. -/
def Obligations.TransmitSendsEachByteAfterAReadyStatus : Prop :=
  ∀ (s : State) (rounds : List TransmitRound) (rest : List Word),
    s.params.ok = true → s.inputs = [] → s.fs = .running → s.mode = .fetch → rounds ≠ [] →
    decodeAt s.prog s.pc =
      .command (.transmit (rounds.map TransmitRound.byte)) (1 + (rounds.length + 3) / 4) →
    (∀ r ∈ rounds, r.answers) → s.draws = rounds.flatMap TransmitRound.draws ++ rest →
    ∃ t : State, runSteps (1 + (rounds.map (fun r => roundTicks r.busy)).sum) s = .next t
      ∧ t = { s with
          hist := s.hist ++ rounds.flatMap (TransmitRound.events s.params)
          pc := s.pc + (1 + (rounds.length + 3) / 4)
          txBuf := rounds.map TransmitRound.byte
          txI := rounds.length
          txPh := .write
          draws := rest
          drawn := t.drawn }

/-- R135: while the status stays zero the transmit engine polls, one read a tick, for any number of ticks. -/
def Obligations.TransmitPollHasNoTimeout : Prop :=
  ∀ (n : Nat) (s : State) (rest : List Word),
    s.params.ok = true → s.inputs = [] → s.fs = .running → s.mode = .execTransmit → s.txPh = .poll →
    s.draws = List.replicate n 0#32 ++ rest →
    runSteps n s = .next { s with
      hist := s.hist ++ List.replicate n (.rd (s.params.mmioBase ||| s.params.uartSel ||| 0x100#32) 0#32)
      draws := rest
      drawn := s.drawn + n }

/-! The harvest engine (42_trng_harvest.md). -/

/-- R151 with R160: the poll step reads `TRNG_STATUS` once; bit 0 alone decides the phase; nothing else. -/
def Obligations.HarvestPollStep : Prop :=
  ∀ s : State, s.atTick → s.fs = .running → s.mode = .execHarvest → s.hvPh = .poll →
    step s = .next { s with
      inputs := s.inputs.tail
      hist := s.hist ++ [.rd (s.params.mmioBase ||| s.params.trngSel ||| 0x24#32) (draw s)]
      draws := s.draws.tail
      drawn := s.drawn + 1
      hvPh := if (draw s)[0] = true then .read else .poll }

/-- R152: the read step reads `TRNG_ENTROPY` once and stores the word in slice `HV_K`, most significant byte first; with
the eighth word it makes the buffer valid and completes with length 1, the phase staying `READ`, else it polls again;
nothing else. -/
def Obligations.HarvestReadStep : Prop :=
  ∀ s : State, s.atTick → s.fs = .running → s.mode = .execHarvest → s.hvPh = .read → s.hvK < 8 →
    ∃ t : State, step s = .next t
      ∧ (∀ (i : Nat) (h : i < 32), t.entBuf[i] =
          if i / 4 = s.hvK then some ((draw s).extractLsb' (24 - 8 * (i % 4)) 8) else s.entBuf[i])
      ∧ t = { s with
          inputs := s.inputs.tail
          hist := s.hist ++ [.rd (s.params.mmioBase ||| s.params.trngSel ||| 0x80#32) (draw s)]
          draws := s.draws.tail
          drawn := s.drawn + 1
          entBuf := t.entBuf
          hvK := s.hvK + 1
          entValid := if s.hvK = 7 then true else s.entValid
          hvPh := if s.hvK = 7 then .read else .poll
          mode := if s.hvK = 7 then .fetch else .execHarvest
          pc := if s.hvK = 7 then s.pc + 1 else s.pc }

/-- R153: the four bytes of a word and the word they make. -/
def Obligations.WordUnpacksBigEndian : Prop :=
  ∀ w : Word,
    beByte w 0 = (w >>> 24).setWidth 8
    ∧ beByte w 1 = ((w >>> 16) &&& 0xFF#32).setWidth 8
    ∧ beByte w 2 = ((w >>> 8) &&& 0xFF#32).setWidth 8
    ∧ beByte w 3 = (w &&& 0xFF#32).setWidth 8
    ∧ beByte w 0 ++ beByte w 1 ++ beByte w 2 ++ beByte w 3 = w

/-- The laws the spec derives in R155 and R156: a HARVEST whose statuses become ready makes, for each of eight words in
order, its status reads (bit 0 clear in all but the last) and then one entropy read, and no other access; byte `j` of word
`i` ends in cell `4i + j`; it takes the ticks of 95_test_vectors.md section 2.3 and completes with length 1. -/
def Obligations.HarvestDeliversEightPolledWords : Prop :=
  ∀ (s : State) (rounds : List HarvestRound) (rest : List Word),
    s.params.ok = true → s.inputs = [] → s.fs = .running → s.mode = .fetch →
    decodeAt s.prog s.pc = .command .harvest 1 → rounds.length = 8 →
    (∀ r ∈ rounds, r.answers) → s.draws = rounds.flatMap HarvestRound.draws ++ rest →
    ∃ t : State, runSteps (1 + (rounds.map (fun r => roundTicks r.busy)).sum) s = .next t
      ∧ (∀ (i j : Nat) (hi : i < rounds.length) (hj : j < 4) (hc : 4 * i + j < 32),
          t.entBuf[4 * i + j] = some (rounds[i].word.extractLsb' (24 - 8 * j) 8))
      ∧ t = { s with
          hist := s.hist ++ rounds.flatMap (HarvestRound.events s.params)
          pc := s.pc + 1
          entBuf := t.entBuf
          entValid := true
          hvK := 8
          hvPh := .read
          draws := rest
          drawn := t.drawn }

/-- R157: while bit 0 of the status stays clear the harvest engine polls, one read a tick, for any number of ticks. -/
def Obligations.HarvestPollHasNoTimeout : Prop :=
  ∀ (busy rest : List Word) (s : State),
    s.params.ok = true → s.inputs = [] → s.fs = .running → s.mode = .execHarvest → s.hvPh = .poll →
    (∀ b ∈ busy, b[0] = false) → s.draws = busy ++ rest →
    runSteps busy.length s = .next { s with
      hist := s.hist ++ busy.map (BusEvent.rd (s.params.mmioBase ||| s.params.trngSel ||| 0x24#32))
      draws := rest
      drawn := s.drawn + busy.length }

/-- R154: the buffer becomes valid only in the read step that stores the eighth word. -/
def Obligations.BufferBecomesValidOnlyWithTheEighthWord : Prop :=
  ∀ s t : State, step s = .next t → s.entValid = false → t.entValid = true →
    nextEvent s = .tick ∧ s.fs = .running ∧ s.mode = .execHarvest ∧ s.hvPh = .read ∧ s.hvK = 7 ∧ t.hvK = 8

/-- R158 with R240: only reset, the fetch of a HARVEST and the harvest engine's read step write the buffer. -/
def Obligations.OnlyHarvestAndResetWriteTheBuffer : Prop :=
  ∀ s t : State, step s = .next t → t.entBuf ≠ s.entBuf →
    nextEvent s = .reset
    ∨ (nextEvent s = .tick ∧ s.fs = .running
      ∧ ((s.mode = .fetch ∧ decodeAt s.prog s.pc = .command .harvest 1)
        ∨ (s.mode = .execHarvest ∧ s.hvPh = .read)))

/-- R159: a valid buffer stays as it is through every step that is no reset, no fault entry and no fetch of a HARVEST. -/
def Obligations.ValidBufferIsKept : Prop :=
  ∀ s t : State, s.Inv → s.entValid = true → step s = .next t → nextEvent s ≠ .reset → t.fs = .running →
    ¬(nextEvent s = .tick ∧ s.mode = .fetch ∧ decodeAt s.prog s.pc = .command .harvest 1) →
    t.entBuf = s.entBuf ∧ t.entValid = true

/-- R40, R250: `ent_out` is refused while the buffer is not valid; in every state that meets the invariants it is refused
after a fault, and a valid buffer is answered whole. -/
def Obligations.EntropyIsReadOnlyWhenValid : Prop :=
  ∀ s : State,
    (s.entValid = false → readEntOut s = .error .entOutNotValid)
    ∧ (s.Inv → s.fs = .faulted → readEntOut s = .error .entOutNotValid)
    ∧ (s.Inv → s.entValid = true → ∃ bytes : List Byte, readEntOut s = .ok bytes
        ∧ s.entBuf.toList = bytes.map some ∧ bytes.length = 32)

/-! Idle, wait, the queue and `PC` (10, 20, 43). -/

/-- R183: in the idle state no tick is enabled. The model offers one there all the same (log entry 8), and it changes no field
of the block. -/
def Obligations.IdleHasNoTick : Prop :=
  ∀ s : State, s.atTick → s.endedNormally →
    tickEnabled s = false ∧ step s = .next { s with inputs := s.inputs.tail }

/-- R182: in the wait state no tick is enabled. The model offers one there all the same (log entry 8), and it changes no field
of the block. -/
def Obligations.WaitingChangesNothing : Prop :=
  ∀ s : State, s.atTick → s.waiting → s.pc ≤ s.prog.length →
    tickEnabled s = false ∧ step s = .next { s with inputs := s.inputs.tail }

/-- R39, R40 and R11: a push appends its words to the queue and changes no other field; one that would take the queue over
2^32 - 1 words is refused (log entry 11). -/
def Obligations.PushAppendsWords : Prop :=
  ∀ (s : State) (ws : List Word) (rest : List Input), s.params.ok = true → s.inputs = .push ws :: rest →
    (s.prog.length + ws.length ≤ 2 ^ 32 - 1 → step s = .next { s with inputs := rest, prog := s.prog ++ ws })
    ∧ (2 ^ 32 - 1 < s.prog.length + ws.length → step s = .refused .queueTooLong)

/-- R68: a word once in the queue never changes; no step of the block itself writes the queue. -/
def Obligations.QueueWordsNeverChange : Prop :=
  ∀ s t : State, step s = .next t →
    t.prog = match nextEvent s with
      | .reset => s.params.prog0
      | .push ws => s.prog ++ ws
      | .faultReq => s.prog
      | .tick => s.prog

/-- R22, R93: between resets `PC` stays, or moves past the command at `PC` when that command completes. -/
def Obligations.PcMovesOnlyPastACompletedCommand : Prop :=
  ∀ s t : State, s.Inv → step s = .next t → nextEvent s ≠ .reset →
    t.pc = s.pc
    ∨ (t.mode = .fetch ∧ ∃ (i : Instr) (len : Nat), decodeAt s.prog s.pc = .command i len ∧ t.pc = s.pc + len)

/-! Faults and the blink engine (60_exceptions.md). -/

/-- R223, R204: `fault_req` is accepted in every running state, whatever its mode; it is fault entry with cause 0, without
a bus access. -/
def Obligations.FaultRequestEntersTheHandler : Prop :=
  ∀ s : State, s.params.ok = true → nextEvent s = .faultReq → s.fs = .running →
    step s = .next (State.enteredFault .external { s with inputs := s.inputs.tail })

/-- R213: `fault_req` while faulted changes no field. -/
def Obligations.FaultWhileFaultedHasNoEffect : Prop :=
  ∀ s : State, s.params.ok = true → nextEvent s = .faultReq → s.fs = .faulted →
    step s = .next { s with inputs := s.inputs.tail }

/-- R214: of the events presented at once, reset is taken before fault_req and fault_req before the tick. -/
def Obligations.PresentedEventsAreTakenByPriority : Prop :=
  ∀ (s : State) (rest : List Input), s.params.ok = true →
    (∀ faultReq : Bool, s.inputs = .present true faultReq :: rest → nextEvent s = .reset)
    ∧ (s.inputs = .present false true :: rest → nextEvent s = .faultReq)
    ∧ (s.inputs = .present false false :: rest → nextEvent s = .tick)
    ∧ (s.inputs = [] → nextEvent s = .tick)

/-- R207 to R210: the four steps of the blink engine, each with what it leaves alone; and, by R207, the step after fault
entry is the first of them, so the first LED write after a fault is the on pattern. -/
def Obligations.BlinkEngineSteps : Prop :=
  (∀ s : State, s.atTick → s.fs = .faulted → s.mode = .blink →
    (s.blPh = .writeOn → step s = .next { s with
      inputs := s.inputs.tail
      hist := s.hist ++ [.wr (s.params.mmioBase ||| s.params.ctrlSel ||| 0x24#32) 0x00000004#32]
      blCnt := s.params.blinkDelay
      blPh := .delayOn })
    ∧ (s.blPh = .delayOn → step s = .next { s with
      inputs := s.inputs.tail
      blCnt := if s.blCnt = 0 then 0 else s.blCnt - 1
      blPh := if s.blCnt = 0 then .writeOff else .delayOn })
    ∧ (s.blPh = .writeOff → step s = .next { s with
      inputs := s.inputs.tail
      hist := s.hist ++ [.wr (s.params.mmioBase ||| s.params.ctrlSel ||| 0x24#32) 0x00000000#32]
      blCnt := s.params.blinkDelay
      blPh := .delayOff })
    ∧ (s.blPh = .delayOff → step s = .next { s with
      inputs := s.inputs.tail
      blCnt := if s.blCnt = 0 then 0 else s.blCnt - 1
      blPh := if s.blCnt = 0 then .writeOn else .delayOff }))
  ∧ ∀ (c : FaultCause) (s : State), s.fs = .running → (State.enteredFault c s).atTick →
    step (State.enteredFault c s) = .next { State.enteredFault c s with
      inputs := s.inputs.tail
      hist := s.hist ++ [.wr (s.params.mmioBase ||| s.params.ctrlSel ||| 0x24#32) 0x00000004#32]
      blCnt := s.params.blinkDelay
      blPh := .delayOn }

/-- The law the spec derives in R211: from the first step after fault entry, `n` periods of `2 (BLINK_DELAY + 2)` ticks
append exactly `n` pairs of LED writes, on before off, and change nothing else. -/
def Obligations.BlinkAlternatesForever : Prop :=
  ∀ (n : Nat) (s : State),
    s.params.ok = true → s.inputs = [] → s.fs = .faulted → s.mode = .blink → s.blPh = .writeOn →
    ∃ t : State, runSteps (n * (2 * (s.params.blinkDelay + 2))) s = .next t
      ∧ t = { s with
          hist := s.hist ++ (List.replicate n (blinkPeriod s.params)).flatten
          blCnt := t.blCnt }

/-- The law the spec derives in R211: after either LED write the engine makes exactly `BLINK_DELAY + 1` ticks without an
access, and the next tick is the other write. -/
def Obligations.BlinkDelayIsSilentAndFixed : Prop :=
  ∀ (k : Nat) (s : State),
    s.params.ok = true → s.inputs = [] → s.fs = .faulted → s.mode = .blink → k ≤ s.params.blinkDelay + 1 →
    (s.blPh = .writeOn →
      (∃ t : State, runSteps (1 + k) s = .next t
        ∧ t.hist = s.hist ++ [.wr (s.params.mmioBase ||| s.params.ctrlSel ||| 0x24#32) 4#32])
      ∧ (∃ t : State, runSteps (1 + (s.params.blinkDelay + 1) + 1) s = .next t
        ∧ t.hist = s.hist ++ blinkPeriod s.params))
    ∧ (s.blPh = .writeOff →
      (∃ t : State, runSteps (1 + k) s = .next t
        ∧ t.hist = s.hist ++ [.wr (s.params.mmioBase ||| s.params.ctrlSel ||| 0x24#32) 0#32])
      ∧ (∃ t : State, runSteps (1 + (s.params.blinkDelay + 1) + 1) s = .next t
        ∧ t.hist = s.hist ++ (blinkPeriod s.params).reverse))

/-- R206, R212, R213: a faulted block, whatever its mode, stays faulted with its cause until reset, fetches no command, and
appends to the history nothing but a write of the LED. -/
def Obligations.FaultedBlockTouchesOnlyTheLed : Prop :=
  ∀ s t : State, step s = .next t → s.fs = .faulted → nextEvent s ≠ .reset →
    t.fs = .faulted ∧ t.fcause = s.fcause ∧ t.pc = s.pc ∧ t.drawn = s.drawn ∧ t.resp = s.resp
    ∧ t.entBuf = s.entBuf ∧ t.txI = s.txI
    ∧ (t.hist = s.hist
      ∨ ∃ v : Word, t.hist = s.hist ++ [.wr (s.params.mmioBase ||| s.params.ctrlSel ||| 0x24#32) v]
          ∧ (v = 4#32 ∨ v = 0#32))

/-- R203: no engine step enters the fault handler. -/
def Obligations.EngineStepsRaiseNoFault : Prop :=
  ∀ s t : State, s.fs = .running → s.mode = .execHarvest ∨ s.mode = .execTransmit → nextEvent s = .tick →
    step s = .next t → t.fs = .running ∧ t.fcause = s.fcause

/-- R183, R223: from the idle state every step but a reset stays there, or is the fault entry of `fault_req` (log entry 15).
A tick offered there, where the spec has none, stays (log entry 8). -/
def Obligations.IdleIsLeftOnlyByFaultOrReset : Prop :=
  ∀ s t : State, s.endedNormally → step s = .next t →
    (t.endedNormally ∧ t.pc = s.pc ∧ t.hist = s.hist) ∨ (nextEvent s = .faultReq ∧ t.fs = .faulted)
    ∨ nextEvent s = .reset

/-! Reset (10_state.md R42, 70_reset_and_hazards.md). -/

/-- R42: the state after power-on, for every choice of the parameters; State.reset is one of these states. -/
def Obligations.PowerOnStateIsAsTabled : Prop :=
  (∀ p : Params,
    (State.boot p).fs = .running ∧ (State.boot p).fcause = none ∧ (State.boot p).pc = 0
    ∧ (State.boot p).mode = .fetch ∧ (State.boot p).rdata = none ∧ (State.boot p).resp = []
    ∧ (State.boot p).hvK = 0 ∧ (State.boot p).hvPh = .poll
    ∧ (∀ (i : Nat) (h : i < 32), (State.boot p).entBuf[i] = none) ∧ (State.boot p).entValid = false
    ∧ (State.boot p).txBuf = [] ∧ (State.boot p).txI = 0 ∧ (State.boot p).txPh = .poll
    ∧ (State.boot p).blPh = .writeOn ∧ (State.boot p).blCnt = 0 ∧ (State.boot p).prog = p.prog0
    ∧ (State.boot p).hist = [.reset] ∧ (State.boot p).params = p)
  ∧ ∃ p : Params, p.ok = true ∧ State.reset = State.boot p

/-- R240: a reset presented in any state, with a `fault_req` or without, makes no access, keeps the history, appends the
marker and gives every other field of the block its value of R42. -/
def Obligations.ResetRestartsFromAnyState : Prop :=
  ∀ (s : State) (faultReq : Bool) (rest : List Input),
    s.params.ok = true → s.inputs = .present true faultReq :: rest →
    step s = .next { State.boot s.params with
      hist := s.hist ++ [.reset]
      inputs := rest
      draws := s.draws
      drawn := s.drawn }

/-! The whole machine. -/

/-- R62, R15: a step appends at most one event; a read among them answers the draw of that step and uses up exactly one
draw, and any other step uses up none. -/
def Obligations.AStepMakesAtMostOneAccess : Prop :=
  ∀ s t : State, step s = .next t →
    (t.hist = s.hist ∧ t.draws = s.draws ∧ t.drawn = s.drawn)
    ∨ (∃ a : Word, t.hist = s.hist ++ [.rd a (draw s)] ∧ t.draws = s.draws.tail ∧ t.drawn = s.drawn + 1)
    ∨ (∃ a v : Word, t.hist = s.hist ++ [.wr a v] ∧ t.draws = s.draws ∧ t.drawn = s.drawn)
    ∨ (nextEvent s = .reset ∧ t.hist = s.hist ++ [.reset] ∧ t.draws = s.draws ∧ t.drawn = s.drawn)

/-- The law the spec derives in R113: a step keeps every event of the history a read of a readable register, a write of a
writable one, or a reset marker. -/
def Obligations.StepKeepsAccessesOnLegalRegisters : Prop :=
  ∀ s t : State, s.histLegal → step s = .next t → t.histLegal

/-- R43 (points 1 to 5) with the ranges of R22, R26, R30, R31 and R34: every step keeps the invariants. -/
def Obligations.StepKeepsTheInvariants : Prop :=
  ∀ s t : State, s.Inv → step s = .next t → t.Inv

/-- R246, R247, met by construction: every step keeps it that an engine reads an entropy word, or writes a byte, directly
after the status read that found the peripheral ready. State.reset has this too. -/
def Obligations.StepKeepsPolledReady : Prop :=
  State.reset.PolledReady ∧ ∀ s t : State, s.PolledReady → step s = .next t → t.PolledReady

/-- R43 with R42: the invariants and the legality of accesses hold after power-on with any well-formed parameters, and so
at State.reset. -/
def Obligations.InvariantsAtReset : Prop :=
  (∀ p : Params, p.ok = true → (State.boot p).Inv ∧ (State.boot p).histLegal)
  ∧ State.reset.Inv ∧ State.reset.histLegal

/-- In every state that meets the invariants, reachable or not, with well-formed parameters and a push, if one is presented,
that keeps R11's bound on the queue, the step answers a next state. In the idle and the wait state the spec has no tick (R39,
R182, R183): that a tick taken there answers a next state is the model's choice (log entry 8). -/
def Obligations.InvariantStatesStepWithinTheQueueBound : Prop :=
  ∀ s : State, s.Inv → s.params.ok = true →
    (∀ ws : List Word, nextEvent s = .push ws → s.prog.length + ws.length ≤ 2 ^ 32 - 1) →
    ∃ t : State, step s = .next t

/-- R35: the history never decides a step: with any other history the step does the same and appends the same events. -/
def Obligations.HistoryNeverDecidesAStep : Prop :=
  ∀ (s : State) (h : List BusEvent),
    match step s with
    | .next t => ∃ es : List BusEvent, t.hist = s.hist ++ es
        ∧ step { s with hist := h } = .next { t with hist := h ++ es }
    | .fault r => step { s with hist := h } = .fault r
    | .refused r => step { s with hist := h } = .refused r

/-- R21: the ghost field FCAUSE never decides a step: with any other value in it the step does the same to every other
field. -/
def Obligations.GhostCauseNeverDecidesAStep : Prop :=
  ∀ (s : State) (c : Option FaultCause),
    match step s with
    | .next t => ∃ t' : State, step { s with fcause := c } = .next t' ∧ t' = { t with fcause := t'.fcause }
    | .fault r => step { s with fcause := c } = .fault r
    | .refused r => step { s with fcause := c } = .refused r
end

