-- ==== Sys2Proof/Laws/Decode.lean ====
section
/-! SUPPORT. The small lemmas of the encoding: the fields of a head word, the bytes of a word, the payload words. -/

namespace Sys2Proof

/-- The bits of a head word, field by field (R81). -/
theorem headWord_getLsbD (op h : BitVec 4) (len : BitVec 16) (i : Nat) :
    (headWord op h len).getLsbD i =
      if i < 16 then len.getLsbD i else if i < 24 then false else if i < 28 then h.getLsbD (i - 24)
      else op.getLsbD (i - 28) := by
  unfold headWord
  erw [BitVec.getLsbD_append]
  simp only [BitVec.getLsbD_append, BitVec.getLsbD_zero]
  by_cases h₁ : i < 16
  · rw [if_pos h₁, if_pos h₁]
  by_cases h₂ : i < 24
  · rw [if_neg h₁, if_pos (by omega), if_neg h₁, if_pos h₂]
  by_cases h₃ : i < 28
  · rw [if_neg h₁, if_neg (by omega), if_pos (by omega), if_neg h₁, if_neg h₂, if_pos h₃]; congr 1
  · rw [if_neg h₁, if_neg (by omega), if_neg (by omega), if_neg h₁, if_neg h₂, if_neg h₃]; congr 1

@[simp] theorem opField_headWord (op h : BitVec 4) (len : BitVec 16) : opField (headWord op h len) = op := by
  ext i hi
  rw [opField, BitVec.getElem_extractLsb', headWord_getLsbD, if_neg (by omega), if_neg (by omega), if_neg (by omega),
    ← BitVec.getLsbD_eq_getElem]
  congr 1; omega

@[simp] theorem handleField_headWord (op h : BitVec 4) (len : BitVec 16) : handleField (headWord op h len) = h := by
  ext i hi
  rw [handleField, BitVec.getElem_extractLsb', headWord_getLsbD, if_neg (by omega), if_neg (by omega),
    if_pos (by omega), ← BitVec.getLsbD_eq_getElem]
  congr 1; omega

@[simp] theorem lenField_headWord (op h : BitVec 4) (len : BitVec 16) : lenField (headWord op h len) = len := by
  ext i hi
  rw [lenField, BitVec.getElem_extractLsb', headWord_getLsbD, if_pos (by omega), ← BitVec.getLsbD_eq_getElem]
  congr 1; omega

/-- The bits of a word made of four bytes, byte by byte (R153). -/
theorem bytesWord_getLsbD (a b c d : Byte) (i : Nat) :
    (bytesWord a b c d).getLsbD i =
      if i < 8 then d.getLsbD i else if i < 16 then c.getLsbD (i - 8) else if i < 24 then b.getLsbD (i - 16)
      else a.getLsbD (i - 24) := by
  unfold bytesWord
  erw [BitVec.getLsbD_append]
  simp only [BitVec.getLsbD_append]
  by_cases h₁ : i < 8
  · rw [if_pos h₁, if_pos h₁]
  by_cases h₂ : i < 16
  · rw [if_neg h₁, if_pos (by omega), if_neg h₁, if_pos h₂]
  by_cases h₃ : i < 24
  · rw [if_neg h₁, if_neg (by omega), if_pos (by omega), if_neg h₁, if_neg h₂, if_pos h₃]; congr 1
  · rw [if_neg h₁, if_neg (by omega), if_neg (by omega), if_neg h₁, if_neg h₂, if_neg h₃]; congr 1

theorem ofNumber_number (h : Handle) : Handle.ofNumber? h.number = some h := by
  cases h <;> decide

theorem number_of_ofNumber {n : BitVec 4} {h : Handle} (e : Handle.ofNumber? n = some h) : h.number = n := by
  revert e; revert n; cases h <;> decide

@[simp] theorem wordBytes_bytesWord (a b c d : Byte) : wordBytes (bytesWord a b c d) = [a, b, c, d] := by
  simp only [wordBytes, List.cons.injEq, and_true]
  refine ⟨?_, ?_, ?_, ?_⟩ <;> ext i hi <;> rw [beByte, BitVec.getElem_extractLsb', bytesWord_getLsbD]
  · rw [if_neg (by omega), if_neg (by omega), if_neg (by omega), ← BitVec.getLsbD_eq_getElem]; congr 1; omega
  · rw [if_neg (by omega), if_neg (by omega), if_pos (by omega), ← BitVec.getLsbD_eq_getElem]; congr 1; omega
  · rw [if_neg (by omega), if_pos (by omega), ← BitVec.getLsbD_eq_getElem]; congr 1; omega
  · rw [if_pos (by omega), ← BitVec.getLsbD_eq_getElem]; congr 1; omega

theorem bytesWord_beByte (w : Word) : bytesWord (beByte w 0) (beByte w 1) (beByte w 2) (beByte w 3) = w := by
  apply BitVec.eq_of_getLsbD_eq
  intro i hi
  rw [bytesWord_getLsbD]
  simp only [beByte, BitVec.getLsbD_extractLsb']
  split
  · simp [*]
  · split
    · simp [show i - 8 < 8 by omega, show 24 - 8 * 2 + (i - 8) = i by omega]
    · split
      · simp [show i - 16 < 8 by omega, show 24 - 8 * 1 + (i - 16) = i by omega]
      · simp [show i - 24 < 8 by omega, show 24 + (i - 24) = i by omega]

/-- R84: the number of payload words. -/
@[simp] theorem packPayload_length (bytes : List Byte) : (packPayload bytes).length = payloadWords bytes.length := by
  induction bytes using packPayload.induct with
  | case1 => rfl
  | case2 => simp [packPayload, payloadWords]
  | case3 => simp [packPayload, payloadWords]
  | case4 => simp [packPayload, payloadWords]
  | case5 a b c d rest ih => simp only [packPayload, List.length_cons, ih, payloadWords]; omega

@[simp] theorem unpackWords_length (ws : List Word) : (unpackWords ws).length = 4 * ws.length := by
  induction ws with
  | nil => rfl
  | cons w ws ih => simp_all [unpackWords, wordBytes]; omega

end Sys2Proof
end

