-- ==== Sys2Proof/Laws/State.lean ====
section
/-! SUPPORT. One lemma per field for each unconditional update of the state, true by rfl. -/

namespace Sys2Proof.Machine

@[simp] theorem memRead_fs (h : Handle) (s : State) : (memRead h s).fs = s.fs := rfl
@[simp] theorem memRead_fcause (h : Handle) (s : State) : (memRead h s).fcause = s.fcause := rfl
@[simp] theorem memRead_pc (h : Handle) (s : State) : (memRead h s).pc = s.pc := rfl
@[simp] theorem memRead_mode (h : Handle) (s : State) : (memRead h s).mode = s.mode := rfl
@[simp] theorem memRead_rdata (h : Handle) (s : State) : (memRead h s).rdata = s.rdata := rfl
@[simp] theorem memRead_resp (h : Handle) (s : State) : (memRead h s).resp = s.resp := rfl
@[simp] theorem memRead_hvK (h : Handle) (s : State) : (memRead h s).hvK = s.hvK := rfl
@[simp] theorem memRead_hvPh (h : Handle) (s : State) : (memRead h s).hvPh = s.hvPh := rfl
@[simp] theorem memRead_entBuf (h : Handle) (s : State) : (memRead h s).entBuf = s.entBuf := rfl
@[simp] theorem memRead_entValid (h : Handle) (s : State) : (memRead h s).entValid = s.entValid := rfl
@[simp] theorem memRead_txBuf (h : Handle) (s : State) : (memRead h s).txBuf = s.txBuf := rfl
@[simp] theorem memRead_txI (h : Handle) (s : State) : (memRead h s).txI = s.txI := rfl
@[simp] theorem memRead_txPh (h : Handle) (s : State) : (memRead h s).txPh = s.txPh := rfl
@[simp] theorem memRead_blPh (h : Handle) (s : State) : (memRead h s).blPh = s.blPh := rfl
@[simp] theorem memRead_blCnt (h : Handle) (s : State) : (memRead h s).blCnt = s.blCnt := rfl
@[simp] theorem memRead_hist (h : Handle) (s : State) : (memRead h s).hist = s.hist ++ [.rd (h.addr s.params) (draw s)] := rfl
@[simp] theorem memRead_prog (h : Handle) (s : State) : (memRead h s).prog = s.prog := rfl
@[simp] theorem memRead_params (h : Handle) (s : State) : (memRead h s).params = s.params := rfl
@[simp] theorem memRead_inputs (h : Handle) (s : State) : (memRead h s).inputs = s.inputs := rfl
@[simp] theorem memRead_draws (h : Handle) (s : State) : (memRead h s).draws = s.draws.tail := rfl
@[simp] theorem memRead_drawn (h : Handle) (s : State) : (memRead h s).drawn = s.drawn + 1 := rfl

@[simp] theorem memWrite_fs (h : Handle) (v : Word) (s : State) : (memWrite h v s).fs = s.fs := rfl
@[simp] theorem memWrite_fcause (h : Handle) (v : Word) (s : State) : (memWrite h v s).fcause = s.fcause := rfl
@[simp] theorem memWrite_pc (h : Handle) (v : Word) (s : State) : (memWrite h v s).pc = s.pc := rfl
@[simp] theorem memWrite_mode (h : Handle) (v : Word) (s : State) : (memWrite h v s).mode = s.mode := rfl
@[simp] theorem memWrite_rdata (h : Handle) (v : Word) (s : State) : (memWrite h v s).rdata = s.rdata := rfl
@[simp] theorem memWrite_resp (h : Handle) (v : Word) (s : State) : (memWrite h v s).resp = s.resp := rfl
@[simp] theorem memWrite_hvK (h : Handle) (v : Word) (s : State) : (memWrite h v s).hvK = s.hvK := rfl
@[simp] theorem memWrite_hvPh (h : Handle) (v : Word) (s : State) : (memWrite h v s).hvPh = s.hvPh := rfl
@[simp] theorem memWrite_entBuf (h : Handle) (v : Word) (s : State) : (memWrite h v s).entBuf = s.entBuf := rfl
@[simp] theorem memWrite_entValid (h : Handle) (v : Word) (s : State) : (memWrite h v s).entValid = s.entValid := rfl
@[simp] theorem memWrite_txBuf (h : Handle) (v : Word) (s : State) : (memWrite h v s).txBuf = s.txBuf := rfl
@[simp] theorem memWrite_txI (h : Handle) (v : Word) (s : State) : (memWrite h v s).txI = s.txI := rfl
@[simp] theorem memWrite_txPh (h : Handle) (v : Word) (s : State) : (memWrite h v s).txPh = s.txPh := rfl
@[simp] theorem memWrite_blPh (h : Handle) (v : Word) (s : State) : (memWrite h v s).blPh = s.blPh := rfl
@[simp] theorem memWrite_blCnt (h : Handle) (v : Word) (s : State) : (memWrite h v s).blCnt = s.blCnt := rfl
@[simp] theorem memWrite_hist (h : Handle) (v : Word) (s : State) : (memWrite h v s).hist = s.hist ++ [.wr (h.addr s.params) v] := rfl
@[simp] theorem memWrite_prog (h : Handle) (v : Word) (s : State) : (memWrite h v s).prog = s.prog := rfl
@[simp] theorem memWrite_params (h : Handle) (v : Word) (s : State) : (memWrite h v s).params = s.params := rfl
@[simp] theorem memWrite_inputs (h : Handle) (v : Word) (s : State) : (memWrite h v s).inputs = s.inputs := rfl
@[simp] theorem memWrite_draws (h : Handle) (v : Word) (s : State) : (memWrite h v s).draws = s.draws := rfl
@[simp] theorem memWrite_drawn (h : Handle) (v : Word) (s : State) : (memWrite h v s).drawn = s.drawn := rfl

@[simp] theorem complete_fs (len : Nat) (s : State) : (complete len s).fs = s.fs := rfl
@[simp] theorem complete_fcause (len : Nat) (s : State) : (complete len s).fcause = s.fcause := rfl
@[simp] theorem complete_pc (len : Nat) (s : State) : (complete len s).pc = s.pc + len := rfl
@[simp] theorem complete_mode (len : Nat) (s : State) : (complete len s).mode = .fetch := rfl
@[simp] theorem complete_rdata (len : Nat) (s : State) : (complete len s).rdata = s.rdata := rfl
@[simp] theorem complete_resp (len : Nat) (s : State) : (complete len s).resp = s.resp := rfl
@[simp] theorem complete_hvK (len : Nat) (s : State) : (complete len s).hvK = s.hvK := rfl
@[simp] theorem complete_hvPh (len : Nat) (s : State) : (complete len s).hvPh = s.hvPh := rfl
@[simp] theorem complete_entBuf (len : Nat) (s : State) : (complete len s).entBuf = s.entBuf := rfl
@[simp] theorem complete_entValid (len : Nat) (s : State) : (complete len s).entValid = s.entValid := rfl
@[simp] theorem complete_txBuf (len : Nat) (s : State) : (complete len s).txBuf = s.txBuf := rfl
@[simp] theorem complete_txI (len : Nat) (s : State) : (complete len s).txI = s.txI := rfl
@[simp] theorem complete_txPh (len : Nat) (s : State) : (complete len s).txPh = s.txPh := rfl
@[simp] theorem complete_blPh (len : Nat) (s : State) : (complete len s).blPh = s.blPh := rfl
@[simp] theorem complete_blCnt (len : Nat) (s : State) : (complete len s).blCnt = s.blCnt := rfl
@[simp] theorem complete_hist (len : Nat) (s : State) : (complete len s).hist = s.hist := rfl
@[simp] theorem complete_prog (len : Nat) (s : State) : (complete len s).prog = s.prog := rfl
@[simp] theorem complete_params (len : Nat) (s : State) : (complete len s).params = s.params := rfl
@[simp] theorem complete_inputs (len : Nat) (s : State) : (complete len s).inputs = s.inputs := rfl
@[simp] theorem complete_draws (len : Nat) (s : State) : (complete len s).draws = s.draws := rfl
@[simp] theorem complete_drawn (len : Nat) (s : State) : (complete len s).drawn = s.drawn := rfl

@[simp] theorem popInput_fs (s : State) : (popInput s).fs = s.fs := rfl
@[simp] theorem popInput_fcause (s : State) : (popInput s).fcause = s.fcause := rfl
@[simp] theorem popInput_pc (s : State) : (popInput s).pc = s.pc := rfl
@[simp] theorem popInput_mode (s : State) : (popInput s).mode = s.mode := rfl
@[simp] theorem popInput_rdata (s : State) : (popInput s).rdata = s.rdata := rfl
@[simp] theorem popInput_resp (s : State) : (popInput s).resp = s.resp := rfl
@[simp] theorem popInput_hvK (s : State) : (popInput s).hvK = s.hvK := rfl
@[simp] theorem popInput_hvPh (s : State) : (popInput s).hvPh = s.hvPh := rfl
@[simp] theorem popInput_entBuf (s : State) : (popInput s).entBuf = s.entBuf := rfl
@[simp] theorem popInput_entValid (s : State) : (popInput s).entValid = s.entValid := rfl
@[simp] theorem popInput_txBuf (s : State) : (popInput s).txBuf = s.txBuf := rfl
@[simp] theorem popInput_txI (s : State) : (popInput s).txI = s.txI := rfl
@[simp] theorem popInput_txPh (s : State) : (popInput s).txPh = s.txPh := rfl
@[simp] theorem popInput_blPh (s : State) : (popInput s).blPh = s.blPh := rfl
@[simp] theorem popInput_blCnt (s : State) : (popInput s).blCnt = s.blCnt := rfl
@[simp] theorem popInput_hist (s : State) : (popInput s).hist = s.hist := rfl
@[simp] theorem popInput_prog (s : State) : (popInput s).prog = s.prog := rfl
@[simp] theorem popInput_params (s : State) : (popInput s).params = s.params := rfl
@[simp] theorem popInput_inputs (s : State) : (popInput s).inputs = s.inputs.tail := rfl
@[simp] theorem popInput_draws (s : State) : (popInput s).draws = s.draws := rfl
@[simp] theorem popInput_drawn (s : State) : (popInput s).drawn = s.drawn := rfl

@[simp] theorem blinkWrite_fs (v : Word) (ph : BlinkPhase) (s : State) : (blinkWrite v ph s).fs = s.fs := rfl
@[simp] theorem blinkWrite_fcause (v : Word) (ph : BlinkPhase) (s : State) : (blinkWrite v ph s).fcause = s.fcause := rfl
@[simp] theorem blinkWrite_pc (v : Word) (ph : BlinkPhase) (s : State) : (blinkWrite v ph s).pc = s.pc := rfl
@[simp] theorem blinkWrite_mode (v : Word) (ph : BlinkPhase) (s : State) : (blinkWrite v ph s).mode = s.mode := rfl
@[simp] theorem blinkWrite_rdata (v : Word) (ph : BlinkPhase) (s : State) : (blinkWrite v ph s).rdata = s.rdata := rfl
@[simp] theorem blinkWrite_resp (v : Word) (ph : BlinkPhase) (s : State) : (blinkWrite v ph s).resp = s.resp := rfl
@[simp] theorem blinkWrite_hvK (v : Word) (ph : BlinkPhase) (s : State) : (blinkWrite v ph s).hvK = s.hvK := rfl
@[simp] theorem blinkWrite_hvPh (v : Word) (ph : BlinkPhase) (s : State) : (blinkWrite v ph s).hvPh = s.hvPh := rfl
@[simp] theorem blinkWrite_entBuf (v : Word) (ph : BlinkPhase) (s : State) : (blinkWrite v ph s).entBuf = s.entBuf := rfl
@[simp] theorem blinkWrite_entValid (v : Word) (ph : BlinkPhase) (s : State) : (blinkWrite v ph s).entValid = s.entValid := rfl
@[simp] theorem blinkWrite_txBuf (v : Word) (ph : BlinkPhase) (s : State) : (blinkWrite v ph s).txBuf = s.txBuf := rfl
@[simp] theorem blinkWrite_txI (v : Word) (ph : BlinkPhase) (s : State) : (blinkWrite v ph s).txI = s.txI := rfl
@[simp] theorem blinkWrite_txPh (v : Word) (ph : BlinkPhase) (s : State) : (blinkWrite v ph s).txPh = s.txPh := rfl
@[simp] theorem blinkWrite_blPh (v : Word) (ph : BlinkPhase) (s : State) : (blinkWrite v ph s).blPh = ph := rfl
@[simp] theorem blinkWrite_blCnt (v : Word) (ph : BlinkPhase) (s : State) : (blinkWrite v ph s).blCnt = s.params.blinkDelay := rfl
@[simp] theorem blinkWrite_hist (v : Word) (ph : BlinkPhase) (s : State) : (blinkWrite v ph s).hist = s.hist ++ [.wr (Handle.led.addr s.params) v] := rfl
@[simp] theorem blinkWrite_prog (v : Word) (ph : BlinkPhase) (s : State) : (blinkWrite v ph s).prog = s.prog := rfl
@[simp] theorem blinkWrite_params (v : Word) (ph : BlinkPhase) (s : State) : (blinkWrite v ph s).params = s.params := rfl
@[simp] theorem blinkWrite_inputs (v : Word) (ph : BlinkPhase) (s : State) : (blinkWrite v ph s).inputs = s.inputs := rfl
@[simp] theorem blinkWrite_draws (v : Word) (ph : BlinkPhase) (s : State) : (blinkWrite v ph s).draws = s.draws := rfl
@[simp] theorem blinkWrite_drawn (v : Word) (ph : BlinkPhase) (s : State) : (blinkWrite v ph s).drawn = s.drawn := rfl

@[simp] theorem harvestStore_fs (s : State) : (harvestStore s).fs = s.fs := rfl
@[simp] theorem harvestStore_fcause (s : State) : (harvestStore s).fcause = s.fcause := rfl
@[simp] theorem harvestStore_pc (s : State) : (harvestStore s).pc = s.pc := rfl
@[simp] theorem harvestStore_mode (s : State) : (harvestStore s).mode = s.mode := rfl
@[simp] theorem harvestStore_rdata (s : State) : (harvestStore s).rdata = s.rdata := rfl
@[simp] theorem harvestStore_resp (s : State) : (harvestStore s).resp = s.resp := rfl
@[simp] theorem harvestStore_hvK (s : State) : (harvestStore s).hvK = s.hvK + 1 := rfl
@[simp] theorem harvestStore_hvPh (s : State) : (harvestStore s).hvPh = s.hvPh := rfl
@[simp] theorem harvestStore_entBuf (s : State) : (harvestStore s).entBuf = storeSlice s.hvK (draw s) s.entBuf := rfl
@[simp] theorem harvestStore_entValid (s : State) : (harvestStore s).entValid = s.entValid := rfl
@[simp] theorem harvestStore_txBuf (s : State) : (harvestStore s).txBuf = s.txBuf := rfl
@[simp] theorem harvestStore_txI (s : State) : (harvestStore s).txI = s.txI := rfl
@[simp] theorem harvestStore_txPh (s : State) : (harvestStore s).txPh = s.txPh := rfl
@[simp] theorem harvestStore_blPh (s : State) : (harvestStore s).blPh = s.blPh := rfl
@[simp] theorem harvestStore_blCnt (s : State) : (harvestStore s).blCnt = s.blCnt := rfl
@[simp] theorem harvestStore_hist (s : State) : (harvestStore s).hist = s.hist ++ [.rd (Handle.trngEntropy.addr s.params) (draw s)] := rfl
@[simp] theorem harvestStore_prog (s : State) : (harvestStore s).prog = s.prog := rfl
@[simp] theorem harvestStore_params (s : State) : (harvestStore s).params = s.params := rfl
@[simp] theorem harvestStore_inputs (s : State) : (harvestStore s).inputs = s.inputs := rfl
@[simp] theorem harvestStore_draws (s : State) : (harvestStore s).draws = s.draws.tail := rfl
@[simp] theorem harvestStore_drawn (s : State) : (harvestStore s).drawn = s.drawn + 1 := rfl

@[simp] theorem transmitSend_fs (b : Byte) (s : State) : (transmitSend b s).fs = s.fs := rfl
@[simp] theorem transmitSend_fcause (b : Byte) (s : State) : (transmitSend b s).fcause = s.fcause := rfl
@[simp] theorem transmitSend_pc (b : Byte) (s : State) : (transmitSend b s).pc = s.pc := rfl
@[simp] theorem transmitSend_mode (b : Byte) (s : State) : (transmitSend b s).mode = s.mode := rfl
@[simp] theorem transmitSend_rdata (b : Byte) (s : State) : (transmitSend b s).rdata = s.rdata := rfl
@[simp] theorem transmitSend_resp (b : Byte) (s : State) : (transmitSend b s).resp = s.resp := rfl
@[simp] theorem transmitSend_hvK (b : Byte) (s : State) : (transmitSend b s).hvK = s.hvK := rfl
@[simp] theorem transmitSend_hvPh (b : Byte) (s : State) : (transmitSend b s).hvPh = s.hvPh := rfl
@[simp] theorem transmitSend_entBuf (b : Byte) (s : State) : (transmitSend b s).entBuf = s.entBuf := rfl
@[simp] theorem transmitSend_entValid (b : Byte) (s : State) : (transmitSend b s).entValid = s.entValid := rfl
@[simp] theorem transmitSend_txBuf (b : Byte) (s : State) : (transmitSend b s).txBuf = s.txBuf := rfl
@[simp] theorem transmitSend_txI (b : Byte) (s : State) : (transmitSend b s).txI = s.txI + 1 := rfl
@[simp] theorem transmitSend_txPh (b : Byte) (s : State) : (transmitSend b s).txPh = s.txPh := rfl
@[simp] theorem transmitSend_blPh (b : Byte) (s : State) : (transmitSend b s).blPh = s.blPh := rfl
@[simp] theorem transmitSend_blCnt (b : Byte) (s : State) : (transmitSend b s).blCnt = s.blCnt := rfl
@[simp] theorem transmitSend_hist (b : Byte) (s : State) : (transmitSend b s).hist = s.hist ++ [.wr (Handle.uartTxData.addr s.params) (zextByte b)] := rfl
@[simp] theorem transmitSend_prog (b : Byte) (s : State) : (transmitSend b s).prog = s.prog := rfl
@[simp] theorem transmitSend_params (b : Byte) (s : State) : (transmitSend b s).params = s.params := rfl
@[simp] theorem transmitSend_inputs (b : Byte) (s : State) : (transmitSend b s).inputs = s.inputs := rfl
@[simp] theorem transmitSend_draws (b : Byte) (s : State) : (transmitSend b s).draws = s.draws := rfl
@[simp] theorem transmitSend_drawn (b : Byte) (s : State) : (transmitSend b s).drawn = s.drawn := rfl

@[simp] theorem draw_popInput (s : State) : draw (popInput s) = draw s := rfl

end Sys2Proof.Machine
end

