-- ==== Sys2Proof/Laws/Ops.lean ====
section
/-! SUPPORT. What each shared operation can do, said once: draws, fault entry, push, the events of a step, the blink
delay, and the slices of the entropy buffer. -/

namespace Sys2Proof.Machine

theorem draw_of_scripted {s : State} {v : Word} {vs : List Word} (h : s.draws = v :: vs) : draw s = v := by
  simp [draw, h]

theorem draw_past_script {s : State} (h : s.draws = []) : draw s = Config.freeRead s.drawn := by
  simp [draw, h]

/-- A fault request, or a decode failure, in a running state. -/
theorem raiseFault_running {s : State} (c : FaultCause) (h : s.fs = .running) :
    raiseFault c s =
      { s with fs := .faulted, fcause := some c, entValid := false, mode := .blink, blPh := .writeOn, blCnt := 0 } := by
  simp [raiseFault, h]

/-- R213. -/
theorem raiseFault_faulted {s : State} (c : FaultCause) (h : s.fs = .faulted) : raiseFault c s = s := by
  simp [raiseFault, h]

/-- R204, R213: what fault entry makes of any state. -/
theorem raiseFault_cases (c : FaultCause) (s : State) :
    (s.fs = .faulted ∧ raiseFault c s = s)
    ∨ (s.fs = .running ∧ raiseFault c s =
        { s with fs := .faulted, fcause := some c, entValid := false, mode := .blink, blPh := .writeOn, blCnt := 0 }) := by
  cases h : s.fs
  · exact .inr ⟨rfl, raiseFault_running c h⟩
  · exact .inl ⟨rfl, raiseFault_faulted c h⟩

/-- Fault entry leaves the state faulted, whatever it was. -/
theorem raiseFault_fs (c : FaultCause) (s : State) : (raiseFault c s).fs = .faulted := by
  cases h : s.fs <;> simp [raiseFault, h]

/-- Everything fault entry leaves alone (R204). -/
theorem raiseFault_frame (c : FaultCause) (s : State) :
    raiseFault c s = { s with
      fs := (raiseFault c s).fs
      fcause := (raiseFault c s).fcause
      entValid := (raiseFault c s).entValid
      mode := (raiseFault c s).mode
      blPh := (raiseFault c s).blPh
      blCnt := (raiseFault c s).blCnt } := by
  cases h : s.fs
  · simp [raiseFault, h]
  · rw [raiseFault_faulted c h]

/-- R37: the low bit of a TRNG status word is its ready flag. -/
theorem trngReady_eq (w : Word) : trngReady w = w[0] := by
  rw [Bool.eq_iff_iff, trngReady, beq_iff_eq]
  constructor
  · intro h; simpa using congrArg (fun v => v.getLsbD 0) h
  · intro h; ext i hi; obtain rfl : i = 0 := by omega
    simpa using h

/-- R131: the phase after a poll. -/
theorem transmitPhase_eq (w : Word) :
    (if txReady w then TransmitPhase.write else .poll) = if w = 0#32 then .poll else .write := by
  by_cases h : w = 0#32 <;> simp [txReady, h]

/-- A push answers the appended queue or is refused. -/
theorem pushWords_next {ws : List Word} {s t : State} (h : pushWords ws s = .next t) :
    s.prog.length + ws.length ≤ queueLimit ∧ t = { s with prog := s.prog ++ ws } := by
  unfold pushWords at h
  split at h
  · exact ⟨‹_›, by simpa using h.symm⟩
  · cases h

/-- The event of a step is a reset, a fault request, a push or a tick, as its presentation says (R214). -/
theorem nextEvent_cases (s : State) :
    (nextEvent s = .tick ∧ (s.inputs = [] ∨ ∃ rest, s.inputs = .present false false :: rest))
    ∨ (nextEvent s = .faultReq ∧ ∃ rest, s.inputs = .present false true :: rest)
    ∨ (nextEvent s = .reset ∧ ∃ f rest, s.inputs = .present true f :: rest)
    ∨ ∃ ws rest, nextEvent s = .push ws ∧ s.inputs = .push ws :: rest := by
  match h : s.inputs with
  | [] => simp [nextEvent, h]
  | .push ws :: rest => simp [nextEvent, h]
  | .present true f :: rest => simp [nextEvent, h]
  | .present false true :: rest => simp [nextEvent, h]
  | .present false false :: rest => simp [nextEvent, h]

/-- A slice holds the word's bytes, most significant first, and every other cell is as before (R152). -/
theorem storeSlice_getElem (k : Nat) (w : Word) (buf : Vector (Option Byte) 32) (i : Nat) (hi : i < 32) :
    (storeSlice k w buf)[i] = if i / 4 = k then some (beByte w (i % 4)) else buf[i] := by
  simp only [storeSlice, Vector.getElem_setIfInBounds]
  split
  · subst_vars; rw [if_pos (by omega)]; congr 2; omega
  · split
    · subst_vars; rw [if_pos (by omega)]; congr 2; omega
    · split
      · subst_vars; rw [if_pos (by omega)]; congr 2; omega
      · split
        · subst_vars; rw [if_pos (by omega)]; congr 2; omega
        · rw [if_neg (by omega)]

/-- R154: after the eighth word. -/
theorem harvestAdvance_last {s : State} (h : s.hvK = 8) :
    harvestAdvance s = { s with entValid := true, pc := s.pc + 1, mode := .fetch } := by
  rw [harvestAdvance, harvestWords, if_pos h]; rfl

/-- R152: after an earlier word. -/
theorem harvestAdvance_more {s : State} (h : s.hvK ≠ 8) : harvestAdvance s = { s with hvPh := .poll } := by
  rw [harvestAdvance, harvestWords, if_neg h]

/-- R132: after the last byte. -/
theorem transmitAdvance_last {s : State} (h : s.txI = s.txBuf.length) :
    transmitAdvance s = { s with pc := s.pc + (1 + payloadWords s.txBuf.length), mode := .fetch } := by
  rw [transmitAdvance, if_pos h]; rfl

/-- R132: after an earlier byte. -/
theorem transmitAdvance_more {s : State} (h : s.txI ≠ s.txBuf.length) :
    transmitAdvance s = { s with txPh := .poll } := by
  rw [transmitAdvance, if_neg h]

/-- R208, R210: the last iteration of a delay. -/
theorem blinkDelay_last {s : State} (ph : BlinkPhase) (h : s.blCnt = 0) : blinkDelay ph s = { s with blPh := ph } := by
  rw [blinkDelay, if_pos h]

/-- R208, R210: an earlier iteration of a delay. -/
theorem blinkDelay_more {s : State} (ph : BlinkPhase) (h : s.blCnt ≠ 0) :
    blinkDelay ph s = { s with blCnt := s.blCnt - 1 } := by
  rw [blinkDelay, if_neg h]

end Sys2Proof.Machine
end

