-- ==== Sys2Proof/Laws/PerInstr.lean ====
section
/-! SUPPORT. Statements about every command as a term, one lemma per constructor. -/

namespace Sys2Proof.Laws.EncodeLength

/-- R86: the encoding of a command has the command's length, and its head word carries the command's opcode (R82). -/
def Statement (i : Instr) : Prop :=
  (encode i).length = i.length ∧ (encode i).head?.map opField = some i.opcode

theorem idle : Statement .idle := by simp [Statement, encode, Instr.length]

theorem peek (h : Handle) : Statement (.peek h) := by simp [Statement, encode, Instr.length]

theorem poke (h : Handle) (v : Word) : Statement (.poke h v) := by simp [Statement, encode, Instr.length]

theorem harvest : Statement .harvest := by simp [Statement, encode, Instr.length]

theorem transmit (bytes : List Byte) : Statement (.transmit bytes) := by
  simp [Statement, encode, Instr.length, Nat.add_comm]

theorem fault : Statement .fault := by simp [Statement, encode, Instr.length]

end Sys2Proof.Laws.EncodeLength
end

