-- ==== Sys2Proof/Laws/Step.lean ====
section
/-! SUPPORT. What a step, a tick and a fetch step can do, said once. -/

namespace Sys2Proof.Machine

/-- A step that answers a next state has well-formed parameters and is its event. -/
theorem step_next {s t : State} (h : step s = .next t) :
    s.params.ok = true ∧ takeEvent (nextEvent s) (popInput s) = .next t := by
  unfold step systemStep at h
  split at h
  · exact ⟨‹_›, h⟩
  · cases h

/-- Under well-formed parameters a step is its event. -/
theorem step_eq {s : State} (h : s.params.ok = true) : step s = takeEvent (nextEvent s) (popInput s) := by
  simp [step, systemStep, h]

/-- A step on which a tick is the event taken. -/
theorem step_tick {s : State} (hp : s.params.ok = true) (he : nextEvent s = .tick) : step s = tick (popInput s) := by
  rw [step_eq hp, he]; rfl

/-- The five rows of R39's table a tick can be. -/
theorem step_fetch {s : State} (hp : s.params.ok = true) (he : nextEvent s = .tick) (hf : s.fs = .running)
    (hm : s.mode = .fetch) : step s = fetchTick (popInput s) := by
  simp only [step_tick hp he, tick, popInput_fs, popInput_mode, hf, hm]

theorem step_harvest {s : State} (hp : s.params.ok = true) (he : nextEvent s = .tick) (hf : s.fs = .running)
    (hm : s.mode = .execHarvest) : step s = harvestTick (popInput s) := by
  simp only [step_tick hp he, tick, popInput_fs, popInput_mode, hf, hm]

theorem step_transmit {s : State} (hp : s.params.ok = true) (he : nextEvent s = .tick) (hf : s.fs = .running)
    (hm : s.mode = .execTransmit) : step s = transmitTick (popInput s) := by
  simp only [step_tick hp he, tick, popInput_fs, popInput_mode, hf, hm]

theorem step_idle {s : State} (hp : s.params.ok = true) (he : nextEvent s = .tick) (hf : s.fs = .running)
    (hm : s.mode = .idle) : step s = .next (popInput s) := by
  simp only [step_tick hp he, tick, popInput_fs, popInput_mode, hf, hm]

theorem step_blink {s : State} (hp : s.params.ok = true) (he : nextEvent s = .tick) (hf : s.fs = .faulted)
    (hm : s.mode = .blink) : step s = .next (blinkTick (popInput s)) := by
  simp only [step_tick hp he, tick, popInput_fs, popInput_mode, hf, hm]

/-- The four events a next state can come from. -/
theorem step_next_cases {s t : State} (h : step s = .next t) :
    (nextEvent s = .reset ∧ t = resetEvent (popInput s))
    ∨ (nextEvent s = .faultReq ∧ t = raiseFault .external (popInput s))
    ∨ (∃ ws, nextEvent s = .push ws ∧ s.prog.length + ws.length ≤ queueLimit
        ∧ t = { popInput s with prog := s.prog ++ ws })
    ∨ (nextEvent s = .tick ∧ tick (popInput s) = .next t) := by
  obtain ⟨-, h⟩ := step_next h
  cases e : nextEvent s with
  | reset => rw [e] at h; simp only [takeEvent, Host.Outcome.next.injEq] at h; simp [h]
  | faultReq => rw [e] at h; simp only [takeEvent, Host.Outcome.next.injEq] at h; simp [h]
  | push ws => rw [e] at h; simpa using pushWords_next h
  | tick => rw [e] at h; simpa [takeEvent] using h

/-- The rules a tick that answers a next state can be (R39). -/
theorem tick_next_cases {s t : State} (h : tick s = .next t) :
    (s.fs = .running ∧ s.mode = .fetch ∧ fetchTick s = .next t)
    ∨ (s.fs = .running ∧ s.mode = .execHarvest ∧ harvestTick s = .next t)
    ∨ (s.fs = .running ∧ s.mode = .execTransmit ∧ transmitTick s = .next t)
    ∨ (s.fs = .running ∧ s.mode = .idle ∧ t = s)
    ∨ (s.fs = .faulted ∧ s.mode = .blink ∧ t = blinkTick s) := by
  unfold tick at h
  split at h <;> simp_all

/-- What a fetch step that answers a next state can be (R92). -/
theorem fetchTick_next_cases {s t : State} (h : fetchTick s = .next t) :
    (∃ i len, decodeAt s.prog s.pc = .command i len ∧ exec i s = .next t)
    ∨ (∃ c, decodeAt s.prog s.pc = .illegal c ∧ t = raiseFault c s)
    ∨ (decodeAt s.prog s.pc = .wait ∧ t = s) := by
  unfold fetchTick at h
  split at h
  · exact .inl ⟨_, _, ‹_›, h⟩
  · exact .inr (.inl ⟨_, ‹_›, by simpa using h.symm⟩)
  · split at h
    · exact .inr (.inr ⟨‹_›, by simpa using h.symm⟩)
    · cases h

/-- The rows a harvest tick that answers a next state can be (R151, R152). -/
theorem harvestTick_next_cases {s t : State} (h : harvestTick s = .next t) :
    (s.hvPh = .poll ∧ t = harvestPoll s)
    ∨ (s.hvPh = .read ∧ s.hvK < 8 ∧ t = harvestAdvance (harvestStore s)) := by
  unfold harvestTick at h
  split at h
  · exact .inl ⟨‹_›, by simpa using h.symm⟩
  · rename_i hr
    unfold harvestRead at h
    split at h
    · exact .inr ⟨hr, ‹_›, by simpa using h.symm⟩
    · cases h

/-- The rows a transmit tick that answers a next state can be (R131, R132). -/
theorem transmitTick_next_cases {s t : State} (h : transmitTick s = .next t) :
    (s.txPh = .poll ∧ t = transmitPoll s)
    ∨ (s.txPh = .write ∧ ∃ b, s.txBuf[s.txI]? = some b ∧ t = transmitAdvance (transmitSend b s)) := by
  unfold transmitTick at h
  split at h
  · exact .inl ⟨‹_›, by simpa using h.symm⟩
  · rename_i hw
    unfold transmitWrite at h
    split at h
    · cases h
    · exact .inr ⟨hw, _, ‹_›, by simpa using h.symm⟩

/-- What a blink tick can do (R207 to R210). -/
theorem blinkTick_cases (s : State) :
    (blinkTick s = blinkWrite ledOn .delayOn s) ∨ (blinkTick s = blinkWrite ledOff .delayOff s)
    ∨ ∃ n ph, n ≤ s.blCnt ∧ blinkTick s = { s with blCnt := n, blPh := ph } := by
  unfold blinkTick
  split
  · exact .inl rfl
  · by_cases h : s.blCnt = 0
    · exact .inr (.inr ⟨_, _, le_rfl, blinkDelay_last _ h⟩)
    · exact .inr (.inr ⟨_, s.blPh, Nat.sub_le _ 1, blinkDelay_more _ h⟩)
  · exact .inr (.inl rfl)
  · by_cases h : s.blCnt = 0
    · exact .inr (.inr ⟨_, _, le_rfl, blinkDelay_last _ h⟩)
    · exact .inr (.inr ⟨_, s.blPh, Nat.sub_le _ 1, blinkDelay_more _ h⟩)

/-- What a command can do: the state each meaning makes, or a fault entry. -/
theorem exec_next_cases {i : Instr} {s t : State} (h : exec i s = .next t) :
    (i = .idle ∧ t = { s with mode := .idle })
    ∨ (∃ r, i = .peek r ∧ r.canRead = true
        ∧ t = complete 1 { memRead r s with rdata := some (draw s), resp := s.resp ++ [draw s] })
    ∨ (∃ r v, i = .poke r v ∧ r.canWrite = true ∧ t = complete 2 (memWrite r v s))
    ∨ (i = .harvest ∧ t = { s with
        entValid := false, entBuf := Vector.replicate 32 none, hvK := 0, hvPh := .poll, mode := .execHarvest })
    ∨ (i = .transmit [] ∧ t = complete 1 s)
    ∨ (∃ bytes, i = .transmit bytes ∧ bytes ≠ []
        ∧ t = { s with txBuf := bytes, txI := 0, txPh := .poll, mode := .execTransmit })
    ∨ ((i = .fault ∨ i.wellFormed = false) ∧ ∃ c, t = raiseFault c s) := by
  cases i with
  | idle => exact .inl ⟨rfl, by simpa [exec, execIdle] using h.symm⟩
  | peek r =>
    simp only [exec, execPeek] at h
    split at h <;> simp only [Host.Outcome.next.injEq] at h
    · exact .inr (.inl ⟨r, rfl, ‹_›, h.symm⟩)
    · exact .inr (.inr (.inr (.inr (.inr (.inr ⟨.inr (Bool.eq_false_iff.2 ‹_›), _, h.symm⟩)))))
  | poke r v =>
    simp only [exec, execPoke] at h
    split at h <;> simp only [Host.Outcome.next.injEq] at h
    · exact .inr (.inr (.inl ⟨r, v, rfl, ‹_›, h.symm⟩))
    · exact .inr (.inr (.inr (.inr (.inr (.inr ⟨.inr (Bool.eq_false_iff.2 ‹_›), _, h.symm⟩)))))
  | harvest => exact .inr (.inr (.inr (.inl ⟨rfl, by simpa [exec, execHarvest] using h.symm⟩)))
  | transmit bytes =>
    cases bytes with
    | nil => exact .inr (.inr (.inr (.inr (.inl ⟨rfl, by simpa [exec, execTransmit] using h.symm⟩))))
    | cons b bs =>
      exact .inr (.inr (.inr (.inr (.inr (.inl ⟨_, rfl, by simp, by simpa [exec, execTransmit] using h.symm⟩)))))
  | fault =>
    exact .inr (.inr (.inr (.inr (.inr (.inr ⟨.inl rfl, _, by simpa [exec, execFault] using h.symm⟩)))))

end Sys2Proof.Machine
end

