-- ==== Sys2Proof/Laws/Run.lean ====
section
/-! SUPPORT. Runs of several steps, unfolded one step at a time, and steps with nothing presented. -/

namespace Sys2Proof.Machine

theorem core_run_next {M : Host.Core} {k : Nat} {s t : M.State} (h : M.step s = .next t) :
    M.run (k + 1) s = M.run k t := by
  rw [Host.Core.run, h]

theorem core_run_fault {M : Host.Core} {k : Nat} {s : M.State} {r : M.Fault} (h : M.step s = .fault r) :
    M.run (k + 1) s = .fault r := by
  rw [Host.Core.run, h]

theorem core_run_refused {M : Host.Core} {k : Nat} {s : M.State} {r : M.Refusal} (h : M.step s = .refused r) :
    M.run (k + 1) s = .refused r := by
  rw [Host.Core.run, h]

@[simp] theorem runSteps_zero (s : State) : runSteps 0 s = .next s := rfl

theorem runSteps_next {k : Nat} {s t : State} (h : step s = .next t) : runSteps (k + 1) s = runSteps k t :=
  core_run_next (M := Sys2Proof.core) h

theorem runSteps_fault {k : Nat} {s : State} {r : Fault} (h : step s = .fault r) : runSteps (k + 1) s = .fault r :=
  core_run_fault (M := Sys2Proof.core) h

theorem runSteps_refused {k : Nat} {s : State} {r : Refusal} (h : step s = .refused r) :
    runSteps (k + 1) s = .refused r :=
  core_run_refused (M := Sys2Proof.core) h

/-- A run whose first `a` steps reach `t` goes on from `t`. -/
theorem runSteps_add {a : Nat} {s t : State} (h : runSteps a s = .next t) (b : Nat) :
    runSteps (a + b) s = runSteps b t := by
  induction a generalizing s with
  | zero => rw [Nat.zero_add]; cases h; rfl
  | succ a ih =>
    rw [Nat.add_right_comm]
    cases e : step s with
    | next u => rw [runSteps_next e] at h ⊢; exact ih h
    | fault r => rw [runSteps_fault e] at h; cases h
    | refused r => rw [runSteps_refused e] at h; cases h

/-- With nothing presented a step is offered a tick. -/
theorem nextEvent_of_quiet {s : State} (h : s.inputs = []) : nextEvent s = .tick := by
  simp [nextEvent, h]

/-- With nothing presented there is no presentation to end. -/
theorem popInput_of_quiet {s : State} (h : s.inputs = []) : popInput s = s := by
  cases s; simp only at h; subst h; rfl

/-- With nothing presented, a step under well-formed parameters is the tick. -/
theorem step_of_quiet {s : State} (hp : s.params.ok = true) (h : s.inputs = []) : step s = tick s := by
  rw [step_tick hp (nextEvent_of_quiet h), popInput_of_quiet h]

end Sys2Proof.Machine
end

