-- ==== Sys2Proof/Tests/Slice0.lean ====
section
/-! SUPPORT. Tests, with the results 95_test_vectors.md gives (the vector is named in each), and for every obligation with
hypotheses a witness that meets them. -/

namespace Sys2Proof.Tests

open Sys2Proof Sys2Proof.Machine

/-- A state after power-on with a queue and scripted answers of the bus reads. -/
def boot (prog draws : List Word) : State := { State.boot Config.params with prog := prog, draws := draws }

/-- The same, in the harvest engine with `k` words stored, at a HARVEST. -/
def harvesting (k : Nat) (ph : HarvestPhase) (draws : List Word) : State :=
  { boot [0x30000000#32] draws with
    mode := .execHarvest
    hvK := k
    hvPh := ph
    entBuf := Vector.ofFn (fun i : Fin 32 => if i.val < 4 * k then some 0xEE#8 else none) }

/-- The same, in the transmit engine at byte `i` of `TRANSMIT "Hello"` (vector T5). -/
def transmitting (i : Nat) (ph : TransmitPhase) (draws : List Word) : State :=
  { boot [0x40000005#32, 0x48656C6C#32, 0x6F000000#32] draws with
    mode := .execTransmit
    txBuf := [0x48#8, 0x65#8, 0x6C#8, 0x6C#8, 0x6F#8]
    txI := i
    txPh := ph }

/-- A faulted state in a phase of the blink engine, with cause 4 (vector F4). -/
def blinking (ph : BlinkPhase) (count : Nat) : State :=
  { boot [0x1A000000#32] [] with fs := .faulted, fcause := some .access, mode := .blink, blPh := ph, blCnt := count }

/-- An ended run (vector S1). -/
def ended : State := { boot [0x00000000#32, 0x30000000#32] [] with mode := .idle }

/-- A state after a completed harvest of the word 0x01010101 eight times, at the end of the queue (program P2). -/
def harvested (prog : List Word) : State :=
  { boot (0x30000000#32 :: prog) [] with
    pc := 1, hvK := 8, hvPh := .read, entBuf := Vector.replicate 32 (some 0x01#8), entValid := true }

/-- What a test reads of a step: something of the next state. -/
def after {α : Type} (s : State) (f : State → α) : Option α :=
  match step s with
  | .next t => some (f t)
  | .fault _ => none
  | .refused _ => none

/-! Ill-formed terms. -/

theorem test_peek_of_led_is_ill_formed : (Instr.peek .led).wellFormed = false := by decide

theorem test_poke_of_trng_status_is_ill_formed : (Instr.poke .trngStatus 0#32).wellFormed = false := by decide

theorem test_payload_of_65536_bytes_is_ill_formed :
    (Instr.transmit (List.replicate 65536 0#8)).wellFormed = false
    ∧ (Instr.transmit (List.replicate 65535 0#8)).wellFormed = true := by
  simp only [Instr.wellFormed, List.length_replicate, maxPayload]; decide

/-! Encoding and decode (section 2.1). -/

/-- The mask and the match of each row of spec/opcode_table.json. -/
def tableRows : List (Word × Word) :=
  [(0xFFFFFFFF#32, 0x00000000#32), (0xF0FFFFFF#32, 0x10000000#32), (0xF0FFFFFF#32, 0x20000000#32),
   (0xFFFFFFFF#32, 0x30000000#32), (0xFFFF0000#32, 0x40000000#32), (0xFFFFFFFF#32, 0xF0000000#32)]

theorem test_table_rows_do_not_overlap :
    tableRows.Pairwise (fun a b => (a.1 &&& b.1) &&& (a.2 ^^^ b.2) ≠ 0#32) := by decide

theorem test_decode_format_a :
    decode [0x00000000#32] = .command .idle 1
    ∧ decode [0x30000000#32] = .command .harvest 1
    ∧ decode [0xF0000000#32] = .command .fault 1
    ∧ decode [0x00000001#32] = .illegal .illegalCommand
    ∧ decode [0x08000000#32] = .illegal .illegalCommand
    ∧ decode [0x3000FFFF#32] = .illegal .illegalCommand
    ∧ decode [0xFFFFFFFF#32] = .illegal .illegalCommand := by decide

theorem test_decode_peek :
    decode [0x10000000#32] = .command (.peek .uartBitRate) 1
    ∧ decode [0x16000000#32] = .command (.peek .uartTxStatus) 1
    ∧ decode [0x19000000#32] = .command (.peek .trngEntropy) 1
    ∧ decode [0x17000000#32] = .illegal .access
    ∧ decode [0x1A000000#32] = .illegal .access
    ∧ decode [0x1B000000#32] = .illegal .badHandle
    ∧ decode [0x1F000000#32] = .illegal .badHandle := by decide

theorem test_decode_peek_check_order :
    decode [0x1B010000#32] = .illegal .illegalCommand
    ∧ decode [0x1A000001#32] = .illegal .illegalCommand
    ∧ decode [0x10800000#32] = .illegal .illegalCommand := by decide

theorem test_decode_poke :
    decode [0x20000000#32] = .wait
    ∧ decode [0x20000000#32, 0x00000068#32] = .command (.poke .uartBitRate 0x68#32) 2
    ∧ decode [0x27000000#32, 0x00000041#32] = .command (.poke .uartTxData 0x41#32) 2
    ∧ decode [0x2A000000#32, 0xFFFFFFFF#32] = .command (.poke .led 0xFFFFFFFF#32) 2
    ∧ decode [0x28000000#32] = .illegal .access
    ∧ decode [0x2B000000#32] = .illegal .badHandle
    ∧ decode [0x20000100#32] = .illegal .illegalCommand := by decide

theorem test_decode_transmit :
    decode [0x40000000#32] = .command (.transmit []) 1
    ∧ decode [0x40000001#32] = .wait
    ∧ decode [0x40000001#32, 0x41000000#32] = .command (.transmit [0x41#8]) 2
    ∧ decode [0x40000001#32, 0x00000000#32] = .command (.transmit [0x00#8]) 2
    ∧ decode [0x40000004#32, 0x4F4B0D0A#32] = .command (.transmit [0x4F#8, 0x4B#8, 0x0D#8, 0x0A#8]) 2
    ∧ decode [0x40000005#32, 0x48656C6C#32] = .wait := by decide

theorem test_decode_transmit_reserved :
    decode [0x40000001#32, 0x41000001#32] = .illegal .illegalCommand
    ∧ decode [0x40000005#32, 0x48656C6C#32, 0x6F000001#32] = .illegal .illegalCommand
    ∧ decode [0x40000005#32, 0x48656C6C#32, 0x6F010000#32] = .illegal .illegalCommand
    ∧ decode [0x40010000#32] = .illegal .illegalCommand
    ∧ decode [0x41000000#32] = .illegal .illegalCommand := by decide

theorem test_decode_reserved_opcodes :
    decode [] = .wait
    ∧ decode [0x50000000#32] = .illegal .illegalCommand
    ∧ decode [0x5FFFFFFF#32] = .illegal .illegalCommand
    ∧ decode [0xE0000000#32] = .illegal .illegalCommand := by decide

theorem test_decode_table_words :
    decodeTableWord 32 0x00000000 = some .idle
    ∧ decodeTableWord 32 0x15000000 = some (.peek .uartRxCount)
    ∧ decodeTableWord 32 0x2A000000 = some (.poke .led 0#32)
    ∧ decodeTableWord 32 0x40000003 = some (.transmit [0#8, 0#8, 0#8])
    ∧ decodeTableWord 32 0x60000000 = none := by decide

theorem test_encode :
    encode (.peek .trngStatus) = [0x18000000#32]
    ∧ encode (.poke .led 0x2#32) = [0x2A000000#32, 0x00000002#32]
    ∧ encode (.transmit [0x41#8]) = [0x40000001#32, 0x41000000#32] := by decide

/-- The assembler vectors of section 2.1 that no obligation holds. -/
theorem test_assemble :
    assembleLine "txbyte 0x0A".toList = some [0x40000001#32, 0x0A000000#32]
    ∧ assembleLine ("transmit ".toList ++ [quoteChar] ++ "Hi".toList ++ [quoteChar]) =
        some [0x40000002#32, 0x48690000#32]
    ∧ assemble ["led_red ; on".toList, "peek LED".toList] = some [0x2A000000#32, 0x00000004#32, 0x1A000000#32]
    ∧ assembleLine "peek LEDS".toList = none := by decide

/-- R94's escapes, and the malformed ones that log entry 10 refuses, the end of the line among them. -/
theorem test_string_escapes :
    lexString ("\\x4F\\r\\n".toList ++ [quoteChar]) = some ([0x4F#8, 0x0D#8, 0x0A#8], [])
    ∧ ["\\x", "\\x4", "\\xG0", "A\\x"].all (fun s => lexString (s.toList ++ [quoteChar]) == none) = true
    ∧ assembleLine ("transmit ".toList ++ [quoteChar] ++ "\\x".toList ++ [quoteChar]) = none := by decide

/-! Addresses and parameters (section 2.2). -/

theorem test_addresses_of_configuration_a :
    Handle.all.map (Handle.addr Config.params) =
      [0x80010040#32, 0x80010044#32, 0x80010048#32, 0x80010080#32, 0x80010084#32, 0x80010088#32, 0x80010100#32,
       0x80010104#32, 0x80020024#32, 0x80020080#32, 0x80030024#32] := by decide

theorem test_refused_configurations :
    Config.params.ok = true
    ∧ { Config.params with trngSel := 0x00010000#32 }.ok = false
    ∧ { Config.params with ctrlSel := 0x00020000#32 }.ok = false
    ∧ { Config.params with mmioBase := 0x80000004#32 }.ok = false
    ∧ { Config.params with mmioBase := 0x80000002#32 }.ok = false := by decide

/-! Readiness and unpacking (sections 2.3, 2.4). -/

theorem test_trng_ready :
    [0x00000001#32, 0x80000001#32, 0xFFFFFFFF#32, 0x00000000#32, 0x00000002#32, 0xFFFFFFFE#32].map trngReady =
      [true, true, true, false, false, false] := by decide

theorem test_tx_ready :
    [0x00000000#32, 0x00000001#32, 0x80000000#32, 0x00000100#32, 0xFFFFFFFF#32].map txReady =
      [false, true, true, true, true] := by decide

theorem test_unpack : wordBytes 0x12345678#32 = [0x12#8, 0x34#8, 0x56#8, 0x78#8]
    ∧ wordBytes 0x80000001#32 = [0x80#8, 0x00#8, 0x00#8, 0x01#8] := by decide

/-! One step of each command and engine. -/

/-- Vector M1. -/
theorem test_peek_reads_and_answers :
    after (boot [0x18000000#32] [0x00000001#32]) (fun t => (t.hist, t.rdata, t.resp, t.pc)) =
      some ([.reset, .rd 0x80020024#32 1#32], some 1#32, [1#32], 1) := by decide

/-- Vector M6. -/
theorem test_peek_led_faults :
    after (boot [0x1A000000#32] []) (fun t => (t.hist, t.fs, t.fcause, t.pc)) =
      some ([.reset], .faulted, some .access, 0) := by decide

/-- Vector M4. -/
theorem test_poke_led :
    after (boot [0x2A000000#32, 0x00000002#32] []) (fun t => (t.hist, t.pc)) =
      some ([.reset, .wr 0x80030024#32 2#32], 2) := by decide

/-- Vector M5: no status read. -/
theorem test_poke_tx_data_does_not_poll :
    after (boot [0x27000000#32, 0x12345641#32] [7#32]) (fun t => (t.hist, t.draws)) =
      some ([.reset, .wr 0x80010104#32 0x12345641#32], [7#32]) := by decide

/-- Vector H6, its first tick. -/
theorem test_harvest_discards_the_buffer :
    after (harvested [0x30000000#32]) (fun t => (t.entValid, t.entBuf.toList, t.hvK, t.mode, t.pc)) =
      some (false, List.replicate 32 none, 0, .execHarvest, 1) := by decide

/-- Vector H1, the last tick. -/
theorem test_eighth_word_makes_the_buffer_valid :
    after (harvesting 7 .read [0x12345678#32])
        (fun t => (t.entBuf.toList.drop 27, t.entValid, t.hvK, t.hvPh, t.mode, t.pc)) =
      some ([some 0xEE#8, some 0x12#8, some 0x34#8, some 0x56#8, some 0x78#8], true, 8, .read, .fetch, 1) := by decide

/-- Vector T1. -/
theorem test_transmit_of_nothing :
    after (boot [0x40000000#32] []) (fun t => (t.hist, t.mode, t.pc)) = some ([.reset], .fetch, 1) := by decide

/-- Vector T5, the tick that sends its last byte. -/
theorem test_last_byte_completes :
    after (transmitting 4 .write []) (fun t => (t.hist, t.txI, t.txPh, t.mode, t.pc)) =
      some ([.reset, .wr 0x80010104#32 0x0000006F#32], 5, .write, .fetch, 3) := by decide

/-- Vector S1. -/
theorem test_idle_keeps_its_index :
    after (boot [0x00000000#32, 0x30000000#32] []) (fun t => (t.mode, t.pc, t.hist)) =
      some (.idle, 0, [.reset]) := by decide

/-- Vector F1. -/
theorem test_fault_command :
    after (boot [0xF0000000#32] []) (fun t => (t.fs, t.fcause, t.mode, t.blPh, t.pc)) =
      some (.faulted, some .software, .blink, .writeOn, 0) := by decide

/-! Events (sections 2.6, 2.7). -/

/-- Vector F2. -/
theorem test_fault_request_in_idle :
    after { ended with inputs := [.present false true] } (fun t => (t.fcause, t.mode)) =
      some (some .external, .blink) := by decide

/-- Vector F4: a nested fault request changes nothing. -/
theorem test_nested_fault_request :
    after { blinking .writeOff 0 with inputs := [.present false true] } (fun t => (t.fcause, t.blPh, t.hist)) =
      some (some .access, .writeOff, [.reset]) := by decide

/-- Vector F6. -/
theorem test_reset_before_fault_request :
    after { blinking .writeOff 0 with inputs := [.present true true] } (fun t => (t.fs, t.mode, t.pc, t.hist)) =
      some (.running, .fetch, 0, [.reset, .reset]) := by decide

/-- Vector F7. -/
theorem test_fault_request_before_a_poll :
    after { transmitting 0 .poll [1#32] with inputs := [.present false true] } (fun t => (t.fs, t.hist)) =
      some (.faulted, [.reset]) := by decide

/-- Section 2.6, `D = 2`, ticks 1 and 4. -/
theorem test_blink :
    after (blinking .writeOn 0) (fun t => (t.hist, t.blPh, t.blCnt)) =
      some ([.reset, .wr 0x80030024#32 4#32], .delayOn, 2)
    ∧ after (blinking .delayOn 0) (fun t => (t.hist, t.blPh, t.blCnt)) = some ([.reset], .writeOff, 0) := by decide

/-- Vector S3: the wait, and the push that ends it. -/
theorem test_push_ends_a_wait :
    after (boot [0x2A000000#32] []) (fun t => (t.pc, t.mode, t.hist)) = some (0, .fetch, [.reset])
    ∧ tickEnabled (boot [0x2A000000#32] []) = false
    ∧ after { boot [0x2A000000#32] [] with inputs := [.push [1#32]] } (fun t => (t.prog, tickEnabled t)) =
        some ([0x2A000000#32, 1#32], true) := by decide

/-- Vector F8, and program P2's read of the buffer. -/
theorem test_ent_out :
    readEntOut (blinking .writeOn 0) = .error .entOutNotValid
    ∧ readEntOut (harvested []) = .ok (List.replicate 32 0x01#8) := ⟨rfl, rfl⟩

/-- R38: the bus port over the step of vector M1. -/
theorem test_bus_port :
    after (boot [0x18000000#32] [1#32]) (portTrace (boot [0x18000000#32] [1#32])) =
      some [⟨0x80020024#32, false, 1#32⟩] := by decide

/-- A table word runs as the first command after reset. -/
theorem test_fetch_of_a_table_word :
    after (State.reset.withFetchWord 32 0x2A000000) (fun t => (t.hist, t.pc)) =
      some ([.reset, .wr 0x80030024#32 0#32], 2) := by decide

/-! Witnesses: for each obligation with hypotheses, values that meet all of them together; where it has several clauses,
one per clause, at the ends of its range. -/

theorem test_wit_DecodeOfEncodeIsTheCommand :
    (Instr.peek .trngEntropy).wellFormed = true ∧ (Instr.poke .led 0xFFFFFFFF#32).wellFormed = true
    ∧ (Instr.transmit (List.replicate 65535 0xFF#8)).wellFormed = true := by
  simp only [Instr.wellFormed, List.length_replicate, maxPayload]; decide

theorem test_wit_AcceptedWordsAreTheEncoding :
    decode [0x40000001#32, 0x41000000#32, 0xFFFFFFFF#32] = .command (.transmit [0x41#8]) 2 := by decide

theorem test_wit_LaterWordsKeepADecidedCommand :
    decode [0x40000001#32, 0x41000000#32] ≠ .wait ∧ decode [0x50000000#32] ≠ .wait := by decide

theorem test_wit_LengthIsDecidedByTheHeadWord :
    decode [0x40000001#32, 0x41000000#32] = .command (.transmit [0x41#8]) 2
    ∧ decode [0x40000001#32, 0x42000000#32] = .command (.transmit [0x42#8]) 2 := by decide

/-- The five clauses, each at both ends of its range. -/
theorem test_wit_ReservedEncodingsAreIllegal :
    (∀ w ∈ [0x50000000#32, 0xEFFFFFFF#32],
      0x5 ≤ (w.extractLsb' 28 4).toNat ∧ (w.extractLsb' 28 4).toNat ≤ 0xE)
    ∧ (∀ w ∈ [0x00000001#32, 0x38000000#32, 0xFFFFFFFF#32],
      (w.extractLsb' 28 4 = 0x0#4 ∨ w.extractLsb' 28 4 = 0x3#4 ∨ w.extractLsb' 28 4 = 0xF#4)
        ∧ w.extractLsb' 0 28 ≠ 0#28)
    ∧ (∀ w ∈ [0x10000001#32, 0x20800000#32],
      (w.extractLsb' 28 4 = 0x1#4 ∨ w.extractLsb' 28 4 = 0x2#4) ∧ w.extractLsb' 0 24 ≠ 0#24)
    ∧ (∀ w ∈ [0x1B000000#32, 0x2F000000#32],
      (w.extractLsb' 28 4 = 0x1#4 ∨ w.extractLsb' 28 4 = 0x2#4) ∧ w.extractLsb' 0 24 = 0#24
        ∧ 11 ≤ (w.extractLsb' 24 4).toNat)
    ∧ (∀ w ∈ [0x40010000#32, 0x48000000#32], w.extractLsb' 28 4 = 0x4#4 ∧ w.extractLsb' 16 12 ≠ 0#12) := by
  simp only [List.forall_mem_cons, List.not_mem_nil, false_implies, implies_true, and_true]
  decide

/-- The three clauses at the payload lengths 4 and 5, where the number of payload words changes. -/
theorem test_wit_TransmitPayloadDecodes :
    (([] : List Word).length < ((4#16).toNat + 3) / 4 ∧ [0x41424344#32].length < ((5#16).toNat + 3) / 4)
    ∧ (((5#16).toNat + 3) / 4 ≤ [0x41424344#32, 0x45000000#32].length
      ∧ ∀ j < 8, (5#16).toNat ≤ j → payloadByte [0x41424344#32, 0x45000000#32] j = 0#8)
    ∧ (((5#16).toNat + 3) / 4 ≤ [0x41424344#32, 0x45000001#32].length
      ∧ payloadByte [0x41424344#32, 0x45000001#32] 7 ≠ 0#8) := by decide

/-- An aliased configuration, a misaligned one, and a well-formed one (section 2.2). -/
theorem test_wit_IllFormedParametersAreRefused :
    Handle.trngEntropy ≠ .uartRxStatus
    ∧ Handle.trngEntropy.addr { Config.params with trngSel := 0x00010000#32 } =
        Handle.uartRxStatus.addr { Config.params with trngSel := 0x00010000#32 }
    ∧ (Handle.led.addr { Config.params with mmioBase := 0x80000002#32 }).extractLsb' 0 2 ≠ 0#2
    ∧ (∀ h₁ ∈ Handle.all, ∀ h₂ ∈ Handle.all, h₁ ≠ h₂ → h₁.addr Config.params ≠ h₂.addr Config.params)
    ∧ (∀ h ∈ Handle.all, (h.addr Config.params).extractLsb' 0 2 = 0#2)
    ∧ Config.params.prog0.length ≤ 2 ^ 32 - 1 := by decide

theorem test_wit_FetchStepRunsTheDecodedCommand :
    ∃ s : State, s.atFetch ∧ decodeAt s.prog s.pc = .command (.poke .led 2#32) 2 :=
  ⟨boot [0x2A000000#32, 2#32] [], ⟨⟨by decide, rfl⟩, rfl, rfl⟩, by decide⟩

theorem test_wit_FetchStepOfIllegalWordsEntersFault :
    ∃ s : State, s.atFetch ∧ decodeAt s.prog s.pc = .illegal .badHandle :=
  ⟨boot [0x1B000000#32] [], ⟨⟨by decide, rfl⟩, rfl, rfl⟩, by decide⟩

theorem test_wit_PeekReadsTheRegister :
    Handle.trngStatus ≠ .uartTxData ∧ Handle.trngStatus ≠ .led := by decide

theorem test_wit_PokeWritesTheRegister :
    ∃ h : Handle, h = .uartBitRate ∨ h = .uartDataBits ∨ h = .uartStopBits ∨ h = .uartTxData ∨ h = .led :=
  ⟨.led, by decide⟩

theorem test_wit_TransmitStartsTheEngine : [0x00#8] ≠ ([] : List Byte) := by decide

theorem test_wit_FaultCommandEntersTheHandler : (boot [0xF0000000#32] []).fs = .running := rfl

theorem test_wit_TermWithoutCapabilityEntersFault :
    (boot [] []).fs = .running ∧ Handle.uartTxData.canRead = false ∧ Handle.led.canRead = false
    ∧ Handle.uartRxStatus.canWrite = false ∧ Handle.trngEntropy.canWrite = false := by decide

theorem test_wit_TransmitPollStep :
    ∃ s : State, s.atTick ∧ s.fs = .running ∧ s.mode = .execTransmit ∧ s.txPh = .poll :=
  ⟨transmitting 0 .poll [0x80000000#32], ⟨by decide, rfl⟩, rfl, rfl, rfl⟩

theorem test_wit_TransmitWriteStep :
    ∃ s : State, s.txI < s.txBuf.length ∧ s.atTick ∧ s.fs = .running ∧ s.mode = .execTransmit ∧ s.txPh = .write :=
  ⟨transmitting 4 .write [], by decide, ⟨by decide, rfl⟩, rfl, rfl, rfl⟩

/-- Vector T3. -/
theorem test_wit_TransmitSendsEachByteAfterAReadyStatus :
    ∃ (s : State) (rounds : List TransmitRound) (rest : List Word),
      s.params.ok = true ∧ s.inputs = [] ∧ s.fs = .running ∧ s.mode = .fetch ∧ rounds ≠ []
      ∧ decodeAt s.prog s.pc =
          .command (.transmit (rounds.map TransmitRound.byte)) (1 + (rounds.length + 3) / 4)
      ∧ (∀ r ∈ rounds, r.answers) ∧ s.draws = rounds.flatMap TransmitRound.draws ++ rest :=
  ⟨boot [0x40000001#32, 0x41000000#32] [0#32, 0#32, 1#32], [⟨[0#32, 0#32], 1#32, 0x41#8⟩], [],
    by decide, rfl, rfl, rfl, by decide, by decide, by
      simp [TransmitRound.answers], rfl⟩

/-- Vector T6. -/
theorem test_wit_TransmitPollHasNoTimeout :
    ∃ (s : State) (rest : List Word),
      s.params.ok = true ∧ s.inputs = [] ∧ s.fs = .running ∧ s.mode = .execTransmit ∧ s.txPh = .poll
      ∧ s.draws = List.replicate 3 0#32 ++ rest :=
  ⟨transmitting 0 .poll [0#32, 0#32, 0#32], [], by decide, rfl, rfl, rfl, rfl, rfl⟩

theorem test_wit_HarvestPollStep :
    ∃ s : State, s.atTick ∧ s.fs = .running ∧ s.mode = .execHarvest ∧ s.hvPh = .poll :=
  ⟨harvesting 0 .poll [0x80000001#32], ⟨by decide, rfl⟩, rfl, rfl, rfl⟩

/-- At the first word and at the last. -/
theorem test_wit_HarvestReadStep :
    ∀ k ∈ [0, 7], (harvesting k .read [1#32]).atTick ∧ (harvesting k .read [1#32]).fs = .running
      ∧ (harvesting k .read [1#32]).mode = .execHarvest ∧ (harvesting k .read [1#32]).hvPh = .read
      ∧ (harvesting k .read [1#32]).hvK < 8 := by
  unfold State.atTick; decide

/-- Vector H2. -/
theorem test_wit_HarvestDeliversEightPolledWords :
    ∃ (s : State) (rounds : List HarvestRound) (rest : List Word),
      s.params.ok = true ∧ s.inputs = [] ∧ s.fs = .running ∧ s.mode = .fetch
      ∧ decodeAt s.prog s.pc = .command .harvest 1 ∧ rounds.length = 8
      ∧ (∀ r ∈ rounds, r.answers) ∧ s.draws = rounds.flatMap HarvestRound.draws ++ rest :=
  ⟨boot [0x30000000#32] ([0#32, 1#32, 7#32] ++ (List.replicate 7 [1#32, 7#32]).flatten),
    ⟨[0#32], 1#32, 7#32⟩ :: List.replicate 7 ⟨[], 1#32, 7#32⟩, [],
    by decide, rfl, rfl, rfl, by decide, rfl, by
      simp [HarvestRound.answers], rfl⟩

/-- Vector H3. -/
theorem test_wit_HarvestPollHasNoTimeout :
    ∃ (busy rest : List Word) (s : State),
      s.params.ok = true ∧ s.inputs = [] ∧ s.fs = .running ∧ s.mode = .execHarvest ∧ s.hvPh = .poll
      ∧ (∀ b ∈ busy, b[0] = false) ∧ s.draws = busy ++ rest :=
  ⟨[0xFFFFFFFE#32, 2#32], [], harvesting 2 .poll [0xFFFFFFFE#32, 2#32], by decide, rfl, rfl, rfl, rfl, by simp, rfl⟩

theorem test_wit_BufferBecomesValidOnlyWithTheEighthWord :
    ∃ s t : State, step s = .next t ∧ s.entValid = false ∧ t.entValid = true :=
  ⟨harvesting 7 .read [1#32], _, rfl, rfl, rfl⟩

theorem test_wit_OnlyHarvestAndResetWriteTheBuffer :
    ∃ s t : State, step s = .next t ∧ t.entBuf ≠ s.entBuf :=
  ⟨harvesting 0 .read [1#32], _, rfl, by decide⟩

/-- A harvested state about to peek, and one that is idle, meet the invariants. -/
theorem test_inv_harvested : (harvested [0x18000000#32]).Inv := by constructor <;> decide

theorem test_inv_harvesting : (harvesting 3 .read [1#32]).Inv := by constructor <;> decide

theorem test_inv_transmitting : (transmitting 4 .write []).Inv := by constructor <;> decide

theorem test_inv_blinking : (blinking .writeOff 0).Inv := by constructor <;> decide

theorem test_wit_ValidBufferIsKept :
    ∃ s t : State, s.Inv ∧ s.entValid = true ∧ step s = .next t ∧ nextEvent s ≠ .reset ∧ t.fs = .running
      ∧ ¬(nextEvent s = .tick ∧ s.mode = .fetch ∧ decodeAt s.prog s.pc = .command .harvest 1) :=
  ⟨harvested [0x18000000#32], _, test_inv_harvested, rfl, rfl, by decide, rfl, by decide⟩

/-- Not valid; faulted; valid. -/
theorem test_wit_EntropyIsReadOnlyWhenValid :
    (harvesting 3 .read [1#32]).entValid = false
    ∧ ((blinking .writeOff 0).Inv ∧ (blinking .writeOff 0).fs = .faulted)
    ∧ ((harvested [0x18000000#32]).Inv ∧ (harvested [0x18000000#32]).entValid = true) :=
  ⟨rfl, ⟨test_inv_blinking, rfl⟩, test_inv_harvested, rfl⟩

theorem test_wit_IdleHasNoTick : ended.atTick ∧ ended.endedNormally := ⟨⟨by decide, rfl⟩, rfl, rfl⟩

/-- At the end of the queue, and at a POKE without its data word. -/
theorem test_wit_WaitingChangesNothing :
    ∀ s ∈ [harvested [], boot [0x2A000000#32] []], s.atTick ∧ s.waiting ∧ s.pc ≤ s.prog.length := by
  unfold State.atTick State.waiting; decide

/-- The first clause. -/
theorem test_wit_PushAppendsWords :
    ∃ (s : State) (ws : List Word) (rest : List Input), s.params.ok = true ∧ s.inputs = .push ws :: rest
      ∧ s.prog.length + ws.length ≤ 2 ^ 32 - 1 :=
  ⟨{ boot [0x2A000000#32] [] with inputs := [.push [1#32]] }, _, _, by decide, rfl, by decide⟩

/-- The second clause, in the state after power-on, for any push that is too long. -/
theorem long_push_meets_hypotheses (ws : List Word) (h : 2 ^ 32 - 1 < ws.length) :
    ∃ (s : State) (rest : List Input), s.params.ok = true ∧ s.inputs = .push ws :: rest
      ∧ 2 ^ 32 - 1 < s.prog.length + ws.length :=
  ⟨{ boot [] [] with inputs := [.push ws] }, [], (show Config.params.ok = true by decide), rfl, by simpa [boot] using h⟩

theorem test_wit_PushAppendsWords_refused :
    ∃ (ws : List Word) (s : State) (rest : List Input), s.params.ok = true ∧ s.inputs = .push ws :: rest
      ∧ 2 ^ 32 - 1 < s.prog.length + ws.length :=
  ⟨_, long_push_meets_hypotheses (List.replicate (2 ^ 32) 0#32) (by rw [List.length_replicate]; exact Nat.lt_add_one _)⟩

theorem test_wit_QueueWordsNeverChange : ∃ s t : State, step s = .next t :=
  ⟨boot [0x2A000000#32, 2#32] [], _, rfl⟩

theorem test_wit_PcMovesOnlyPastACompletedCommand :
    ∃ s t : State, s.Inv ∧ step s = .next t ∧ nextEvent s ≠ .reset :=
  ⟨transmitting 4 .write [], _, test_inv_transmitting, rfl, by decide⟩

/-- In the idle state (vector F2) and in an engine (vector F7). -/
theorem test_wit_FaultRequestEntersTheHandler :
    ∀ s ∈ [{ ended with inputs := [.present false true] },
        { transmitting 0 .poll [] with inputs := [.present false true] }],
      s.params.ok = true ∧ nextEvent s = .faultReq ∧ s.fs = .running := by decide

theorem test_wit_FaultWhileFaultedHasNoEffect :
    ∃ s : State, s.params.ok = true ∧ nextEvent s = .faultReq ∧ s.fs = .faulted :=
  ⟨{ blinking .writeOff 0 with inputs := [.present false true] }, by decide, rfl, rfl⟩

/-- A state for each of the four presentations. -/
theorem test_wit_PresentedEventsAreTakenByPriority :
    ∀ i ∈ [[Input.present true true], [.present false true], [.present false false], []],
      { ended with inputs := i }.params.ok = true ∧ { ended with inputs := i }.inputs = i := by decide

/-- Each phase, the delays at their last iteration and before it. -/
theorem test_wit_BlinkEngineSteps :
    ∀ s ∈ [blinking .writeOn 0, blinking .delayOn 0, blinking .delayOn 2, blinking .writeOff 0, blinking .delayOff 0,
        blinking .delayOff 2],
      s.atTick ∧ s.fs = .faulted ∧ s.mode = .blink := by
  unfold State.atTick; decide

/-- The step after fault entry, from an ended run and from the transmit engine. -/
theorem test_wit_BlinkEngineSteps_entry :
    ∀ s ∈ [ended, transmitting 2 .poll []], s.fs = .running ∧ (State.enteredFault .external s).atTick := by
  unfold State.atTick; decide

theorem test_wit_BlinkAlternatesForever :
    ∃ s : State, s.params.ok = true ∧ s.inputs = [] ∧ s.fs = .faulted ∧ s.mode = .blink ∧ s.blPh = .writeOn :=
  ⟨blinking .writeOn 0, by decide, rfl, rfl, rfl, rfl⟩

/-- Both write phases, with `k` at both ends of its range. -/
theorem test_wit_BlinkDelayIsSilentAndFixed :
    ∀ k ∈ [0, 3], ∀ ph ∈ [BlinkPhase.writeOn, .writeOff],
      (blinking ph 0).params.ok = true ∧ (blinking ph 0).inputs = [] ∧ (blinking ph 0).fs = .faulted
      ∧ (blinking ph 0).mode = .blink ∧ k ≤ (blinking ph 0).params.blinkDelay + 1 ∧ (blinking ph 0).blPh = ph := by
  decide

theorem test_wit_FaultedBlockTouchesOnlyTheLed :
    ∃ s t : State, step s = .next t ∧ s.fs = .faulted ∧ nextEvent s ≠ .reset :=
  ⟨blinking .writeOff 0, _, rfl, rfl, by decide⟩

theorem test_wit_EngineStepsRaiseNoFault :
    ∃ s t : State, s.fs = .running ∧ (s.mode = .execHarvest ∨ s.mode = .execTransmit) ∧ nextEvent s = .tick
      ∧ step s = .next t :=
  ⟨harvesting 7 .read [1#32], _, rfl, .inl rfl, rfl, rfl⟩

theorem test_wit_IdleIsLeftOnlyByFaultOrReset : ∃ s t : State, s.endedNormally ∧ step s = .next t :=
  ⟨{ ended with inputs := [.present false true] }, _, ⟨rfl, rfl⟩, rfl⟩

theorem test_wit_ResetRestartsFromAnyState :
    ∃ (s : State) (rest : List Input), s.params.ok = true ∧ s.inputs = .present true true :: rest :=
  ⟨{ blinking .writeOff 0 with inputs := [.present true true] }, _, by decide, rfl⟩

theorem test_wit_AStepMakesAtMostOneAccess : ∃ s t : State, step s = .next t :=
  ⟨boot [0x18000000#32] [1#32], _, rfl⟩

theorem test_wit_StepKeepsAccessesOnLegalRegisters :
    ∃ s t : State, s.histLegal ∧ step s = .next t := by
  refine ⟨boot [0x18000000#32] [1#32], _, ?_, rfl⟩
  intro e he
  obtain rfl : e = .reset := by simpa [boot, State.boot] using he
  trivial

theorem test_wit_StepKeepsTheInvariants : ∃ s t : State, s.Inv ∧ step s = .next t :=
  ⟨harvesting 3 .read [1#32], _, test_inv_harvesting, rfl⟩

/-- A harvest engine that has just found the TRNG ready. -/
theorem test_wit_StepKeepsPolledReady : ∃ s t : State, s.PolledReady ∧ s.mode = .execHarvest ∧ s.hvPh = .read
    ∧ step s = .next t :=
  ⟨{ harvesting 3 .read [1#32] with hist := [.rd 0x80020024#32 1#32] }, _,
    ⟨fun _ _ => ⟨1#32, by decide, rfl⟩, by intro h; cases h⟩, rfl, rfl, rfl⟩

theorem test_wit_InvariantsAtReset : Config.params.ok = true := by decide

theorem test_wit_InvariantStatesStepWithinTheQueueBound :
    ∃ s : State, s.Inv ∧ s.params.ok = true
      ∧ ∀ ws : List Word, nextEvent s = .push ws → s.prog.length + ws.length ≤ 2 ^ 32 - 1 :=
  ⟨harvesting 3 .read [1#32], test_inv_harvesting, by decide, by intro ws h; cases h⟩

end Sys2Proof.Tests
end

section
/-! The length and the operands of a command the decoder answers, and that later words do not change an answer (R86,
R88). -/

namespace Sys2Proof

theorem decodeFormatA_eq_command {i j : Instr} {w : Word} {len : Nat} (e : decodeFormatA i w = .command j len) :
    j = i ∧ len = 1 := by
  unfold decodeFormatA at e
  split at e
  · cases e; exact ⟨rfl, rfl⟩
  · cases e

theorem decodeFormatH_eq_ok {allowed : Handle → Bool} {w : Word} {h : Handle}
    (e : decodeFormatH allowed w = .ok h) : allowed h = true := by
  unfold decodeFormatH at e
  split at e
  · cases e
  · split at e
    · cases e
    · split at e
      · cases e; assumption
      · cases e

theorem decodePeek_eq_command {i : Instr} {w : Word} {len : Nat} (e : decodePeek w = .command i len) :
    ∃ h : Handle, h.canRead = true ∧ i = .peek h ∧ len = 1 := by
  unfold decodePeek at e
  split at e
  · cases e
  · next h hh => cases e; exact ⟨h, decodeFormatH_eq_ok hh, rfl, rfl⟩

theorem decodePoke_eq_command {i : Instr} {w : Word} {rest : List Word} {len : Nat}
    (e : decodePoke w rest = .command i len) :
    ∃ (h : Handle) (v : Word), h.canWrite = true ∧ i = .poke h v ∧ len = 2 ∧ 1 ≤ rest.length := by
  unfold decodePoke at e
  split at e
  · cases e
  · next h hh =>
    split at e
    · cases e
    · next v vs => cases e; exact ⟨h, v, decodeFormatH_eq_ok hh, rfl, rfl, by simp⟩

/-- The payload has the length of the head word's field, which 16 bits hold (R84). -/
theorem decodeTransmit_eq_command {i : Instr} {w : Word} {rest : List Word} {len : Nat}
    (e : decodeTransmit w rest = .command i len) :
    ∃ bytes : List Byte, bytes.length ≤ maxPayload ∧ i = .transmit bytes ∧ len = 1 + payloadWords bytes.length
      ∧ payloadWords bytes.length ≤ rest.length := by
  simp only [decodeTransmit] at e
  split at e
  · cases e
  split at e
  · cases e
  split at e
  · next hwait _ =>
    have hlen : ((unpackWords (rest.take (payloadWords (lenField w).toNat))).take (lenField w).toNat).length
        = (lenField w).toNat := by
      rw [List.length_take, unpackWords_length, List.length_take]
      unfold payloadWords at *
      omega
    cases e
    refine ⟨_, ?_, rfl, ?_, ?_⟩ <;> rw [hlen]
    · have := (lenField w).isLt
      unfold maxPayload
      omega
    · omega
  · cases e

/-- What the decoder answers is a command of the spec (R110, R111, R84), whose words are all in the queue (R86, R88). -/
theorem decode_eq_command {ws : List Word} {i : Instr} {len : Nat} (e : decode ws = .command i len) :
    i.wellFormed = true ∧ len = i.length ∧ len ≤ ws.length := by
  unfold decode at e
  split at e
  · cases e
  · split at e
    · obtain ⟨rfl, rfl⟩ := decodeFormatA_eq_command e; simp [Instr.wellFormed, Instr.length]
    · obtain ⟨h, hr, rfl, rfl⟩ := decodePeek_eq_command e; simp [Instr.wellFormed, Instr.length, hr]
    · obtain ⟨h, v, hw, rfl, rfl, hl⟩ := decodePoke_eq_command e; simp [Instr.wellFormed, Instr.length, hw, hl]
    · obtain ⟨rfl, rfl⟩ := decodeFormatA_eq_command e; simp [Instr.wellFormed, Instr.length]
    · obtain ⟨bytes, hb, rfl, rfl, hl⟩ := decodeTransmit_eq_command e
      simp [Instr.wellFormed, Instr.length, hb, hl, Nat.add_comm]
    · obtain ⟨rfl, rfl⟩ := decodeFormatA_eq_command e; simp [Instr.wellFormed, Instr.length]
    · cases e

theorem decodePoke_append {w : Word} {rest : List Word} (h : decodePoke w rest ≠ .wait) (vs : List Word) :
    decodePoke w (rest ++ vs) = decodePoke w rest := by
  unfold decodePoke at *
  split
  · rfl
  · cases rest with
    | nil => simp_all
    | cons v rest => rfl

theorem decodeTransmit_append {w : Word} {rest : List Word} (h : decodeTransmit w rest ≠ .wait) (vs : List Word) :
    decodeTransmit w (rest ++ vs) = decodeTransmit w rest := by
  by_cases hz : w.extractLsb' 16 12 ≠ 0#12
  · simp only [decodeTransmit, if_pos hz]
  · have hm : payloadWords (lenField w).toNat ≤ rest.length := by
      by_contra hlt
      exact h (by simp only [decodeTransmit, if_neg hz, if_pos (Nat.lt_of_not_le hlt)])
    simp only [decodeTransmit, if_neg hz, List.length_append, List.take_append_of_le_length hm,
      if_neg (Nat.not_lt.2 hm), if_neg (Nat.not_lt.2 (Nat.le_add_right_of_le hm))]

/-- Words after a decided command or cause never change the answer (R68, R88). -/
theorem decode_append {ws : List Word} (h : decode ws ≠ .wait) (vs : List Word) : decode (ws ++ vs) = decode ws := by
  cases ws with
  | nil => exact absurd rfl h
  | cons w rest =>
    simp only [List.cons_append, decode] at h ⊢
    split
    · rfl
    · rfl
    · exact decodePoke_append (by simp_all) vs
    · rfl
    · exact decodeTransmit_append (by simp_all) vs
    · rfl
    · rfl

/-- The command at `PC` is a command of the spec, and the queue holds all of its words. -/
theorem decodeAt_eq_command {prog : List Word} {pc : Nat} {i : Instr} {len : Nat}
    (e : decodeAt prog pc = .command i len) :
    i.wellFormed = true ∧ len = i.length ∧ pc + len ≤ prog.length := by
  obtain ⟨hw, hl, hle⟩ := decode_eq_command e
  rw [List.length_drop] at hle
  have : 1 ≤ len := by rw [hl]; cases i <;> simp [Instr.length]
  exact ⟨hw, hl, by omega⟩

/-- A push never changes the command at `PC`. -/
theorem decodeAt_append {prog : List Word} {pc : Nat} {i : Instr} {len : Nat}
    (e : decodeAt prog pc = .command i len) (vs : List Word) : decodeAt (prog ++ vs) pc = .command i len := by
  have hpc : pc ≤ prog.length := by have := (decodeAt_eq_command e).2.2; omega
  unfold decodeAt at *
  rw [List.drop_append_of_le_length hpc, decode_append (by simp [e]), e]

end Sys2Proof
end

section
/-! The invariants of R43 hold after reset (R42), and every step keeps them. One lemma per operation of the block; a lemma
lists the invariants whose fields the operation changes, and takes the rest from the state before. -/

namespace Sys2Proof.Machine

/-- R54 bounds the first queue. -/
theorem prog0_length_le {p : Params} (h : p.ok = true) : p.prog0.length ≤ queueLimit := by
  simp only [Params.ok, Bool.and_eq_true, decide_eq_true_eq] at h
  exact h.2

theorem boot_inv {p : Params} (h : p.ok = true) : (State.boot p).Inv where
  faulted_iff_blink := by simp [State.boot]
  no_cause_iff_running := by simp [State.boot]
  valid_full := by simp [State.boot]
  faulted_hidden := by simp [State.boot]
  valid_eight := by simp [State.boot]
  harvest_partial := by simp [State.boot]
  transmit_index := by simp [State.boot]
  harvest_command := by simp [State.boot]
  transmit_command := by simp [State.boot]
  idle_command := by simp [State.boot]
  pc_range := Nat.zero_le _
  queue_range := prog0_length_le h
  hvK_range := Nat.zero_le _
  txBuf_range := Nat.zero_le _
  txI_range := le_rfl
  blCnt_range := Nat.zero_le _
  rdata_last := rfl

theorem boot_histLegal (p : Params) : (State.boot p).histLegal := by
  intro e he
  obtain rfl := List.mem_singleton.1 he
  trivial

section Steps

variable {s t : State}

theorem inv_popInput (h : s.Inv) : (popInput s).Inv := { h with }

theorem inv_memRead (h : s.Inv) (r : Handle) : (memRead r s).Inv := { h with }

theorem inv_memWrite (h : s.Inv) (r : Handle) (v : Word) : (memWrite r v s).Inv := { h with }

/-- R240: a reset gives every field the invariants speak of its value after power-on. -/
theorem inv_resetEvent (h : s.params.ok = true) : (resetEvent s).Inv := { boot_inv h with }

/-- R204: fault entry hides the buffer and stops every engine. -/
theorem inv_raiseFault (h : s.Inv) (c : FaultCause) : (raiseFault c s).Inv := by
  obtain ⟨-, e⟩ | ⟨-, e⟩ := raiseFault_cases c s
  · rwa [e]
  · rw [e]
    exact { h with
      faulted_iff_blink := by simp
      no_cause_iff_running := by simp
      valid_full := by simp
      faulted_hidden := by simp
      valid_eight := by simp
      harvest_partial := by simp
      transmit_index := by simp
      harvest_command := by simp
      transmit_command := by simp
      idle_command := by simp
      blCnt_range := Nat.zero_le _ }

/-- R39, R68: a push leaves the command in execution where it is. -/
theorem inv_push (h : s.Inv) {ws : List Word} (hl : s.prog.length + ws.length ≤ queueLimit) :
    State.Inv { s with prog := s.prog ++ ws } :=
  { h with
    harvest_command := fun m => decodeAt_append (h.harvest_command m) ws
    transmit_command := fun m => decodeAt_append (h.transmit_command m) ws
    idle_command := fun m => decodeAt_append (h.idle_command m) ws
    pc_range := by simpa using Nat.le_add_right_of_le h.pc_range
    queue_range := by simpa using hl }

/-- A running block that goes back to `FETCH`, the words it passes being in the queue (R93). -/
theorem inv_complete (h : s.Inv) (hf : s.fs = .running) {len : Nat} (hpc : s.pc + len ≤ s.prog.length) :
    (complete len s).Inv :=
  { h with
    faulted_iff_blink := by simp [hf]
    harvest_partial := by simp
    transmit_index := by simp
    harvest_command := by simp
    transmit_command := by simp
    idle_command := by simp
    pc_range := hpc }

/-- R24, R25: a PEEK answers into `RDATA` and at the end of `RESP`. -/
theorem inv_answer (h : s.Inv) (v : Word) : State.Inv { s with rdata := some v, resp := s.resp ++ [v] } :=
  { h with rdata_last := by simp }

/-- R180: the engines are stopped and the command at `PC` is the IDLE. -/
theorem inv_idle (h : s.Inv) (hf : s.fs = .running) (hd : decodeAt s.prog s.pc = .command .idle 1) :
    State.Inv { s with mode := .idle } :=
  { h with
    faulted_iff_blink := by simp [hf]
    harvest_partial := by simp
    transmit_index := by simp
    harvest_command := by simp
    transmit_command := by simp
    idle_command := fun _ => hd }

/-- R150: the harvest starts with no word stored and every cell empty. -/
theorem inv_startHarvest (h : s.Inv) (hf : s.fs = .running) (hd : decodeAt s.prog s.pc = .command .harvest 1) :
    State.Inv { s with
      entValid := false, entBuf := Vector.replicate 32 none, hvK := 0, hvPh := .poll, mode := .execHarvest } :=
  { h with
    faulted_iff_blink := by simp [hf]
    valid_full := by simp
    faulted_hidden := by simp
    valid_eight := by simp
    harvest_partial := by simp
    transmit_index := by simp
    harvest_command := fun _ => hd
    transmit_command := by simp
    idle_command := by simp
    hvK_range := Nat.zero_le _ }

/-- R130: the transmission starts at the first byte of a payload that is not empty. -/
theorem inv_startTransmit (h : s.Inv) (hf : s.fs = .running) {bytes : List Byte} (hne : bytes ≠ [])
    (hmax : bytes.length ≤ maxPayload)
    (hd : decodeAt s.prog s.pc = .command (.transmit bytes) (1 + payloadWords bytes.length)) :
    State.Inv { s with txBuf := bytes, txI := 0, txPh := .poll, mode := .execTransmit } :=
  { h with
    faulted_iff_blink := by simp [hf]
    harvest_partial := by simp
    transmit_index := fun _ => List.length_pos_of_ne_nil hne
    harvest_command := by simp
    transmit_command := fun _ => hd
    idle_command := by simp
    txBuf_range := hmax
    txI_range := Nat.zero_le _ }

/-- R92: the command at `PC` is run. Its length is the one decode answers, so `PC` stays in the queue. -/
theorem exec_keeps_inv (h : s.Inv) (hf : s.fs = .running) {i : Instr} {len : Nat}
    (hd : decodeAt s.prog s.pc = .command i len) (he : exec i s = .next t) : t.Inv := by
  obtain ⟨hwf, rfl, hpc⟩ := decodeAt_eq_command hd
  obtain ⟨rfl, rfl⟩ | ⟨r, rfl, -, rfl⟩ | ⟨r, v, rfl, -, rfl⟩ | ⟨rfl, rfl⟩ | ⟨rfl, rfl⟩ | ⟨bytes, rfl, hne, rfl⟩
    | ⟨-, c, rfl⟩ := exec_next_cases he
  · exact inv_idle h hf hd
  · exact inv_complete (inv_answer (inv_memRead h r) _) hf hpc
  · exact inv_complete (inv_memWrite h r v) hf hpc
  · exact inv_startHarvest h hf hd
  · exact inv_complete h hf hpc
  · exact inv_startTransmit h hf hne (of_decide_eq_true hwf) hd
  · exact inv_raiseFault h c

theorem fetchTick_keeps_inv (h : s.Inv) (hf : s.fs = .running) (e : fetchTick s = .next t) : t.Inv := by
  obtain ⟨i, len, hd, he⟩ | ⟨c, -, rfl⟩ | ⟨-, rfl⟩ := fetchTick_next_cases e
  · exact exec_keeps_inv h hf hd he
  · exact inv_raiseFault h c
  · exact h

theorem inv_harvestPoll (h : s.Inv) : (harvestPoll s).Inv := { h with }

/-- R152: storing the word `k` fills the slice `k` of a buffer whose first `k` slices are full. -/
theorem storeSlice_isSome {k : Nat} {buf : Vector (Option Byte) 32}
    (hb : ∀ (i : Nat) (hi : i < 32), buf[i].isSome = decide (i < 4 * k)) (w : Word) (i : Nat) (hi : i < 32) :
    (storeSlice k w buf)[i].isSome = decide (i < 4 * (k + 1)) := by
  rw [storeSlice_getElem, apply_ite Option.isSome, hb i hi, Option.isSome_some]
  split
  · simp; omega
  · simp; omega

/-- R152, R154: the read step of a harvest. -/
theorem inv_harvestRead (h : s.Inv) (hf : s.fs = .running) (hm : s.mode = .execHarvest) :
    (harvestAdvance (harvestStore s)).Inv := by
  obtain ⟨hv, hk, hcells⟩ := h.harvest_partial hm
  have hstored := storeSlice_isSome hcells (draw s)
  by_cases hlast : (harvestStore s).hvK = 8
  · have hk7 : s.hvK = 7 := by simpa using hlast
    rw [harvestAdvance_last hlast]
    have hc := inv_complete h hf (decodeAt_eq_command (h.harvest_command hm)).2.2
    exact { hc with
      valid_full := fun _ i hi => by simpa [hk7, hi] using hstored i hi
      faulted_hidden := by simp [hf]
      valid_eight := fun _ => hlast
      harvest_partial := by simp
      hvK_range := hk }
  · rw [harvestAdvance_more hlast]
    have hk8 : s.hvK + 1 < 8 := lt_of_le_of_ne hk hlast
    exact { h with
      valid_full := by simp [hv]
      valid_eight := by simp [hv]
      harvest_partial := fun _ => ⟨hv, hk8, hstored⟩
      hvK_range := hk }

theorem harvestTick_keeps_inv (h : s.Inv) (hf : s.fs = .running) (hm : s.mode = .execHarvest)
    (e : harvestTick s = .next t) : t.Inv := by
  obtain ⟨-, rfl⟩ | ⟨-, -, rfl⟩ := harvestTick_next_cases e
  · exact inv_harvestPoll h
  · exact inv_harvestRead h hf hm

theorem inv_transmitPoll (h : s.Inv) : (transmitPoll s).Inv := { h with }

/-- R132: the write step of a transmission. -/
theorem inv_transmitWrite (h : s.Inv) (hf : s.fs = .running) (hm : s.mode = .execTransmit) (b : Byte) :
    (transmitAdvance (transmitSend b s)).Inv := by
  have hi : s.txI + 1 ≤ s.txBuf.length := h.transmit_index hm
  by_cases hlast : (transmitSend b s).txI = (transmitSend b s).txBuf.length
  · rw [transmitAdvance_last hlast]
    have hc := inv_complete h hf (decodeAt_eq_command (h.transmit_command hm)).2.2
    exact { hc with
      transmit_index := by simp
      txI_range := hi }
  · rw [transmitAdvance_more hlast]
    exact { h with
      transmit_index := fun _ => lt_of_le_of_ne hi hlast
      txI_range := hi }

theorem transmitTick_keeps_inv (h : s.Inv) (hf : s.fs = .running) (hm : s.mode = .execTransmit)
    (e : transmitTick s = .next t) : t.Inv := by
  obtain ⟨-, rfl⟩ | ⟨-, b, -, rfl⟩ := transmitTick_next_cases e
  · exact inv_transmitPoll h
  · exact inv_transmitWrite h hf hm b

/-- R207 to R210: the blink engine changes only its phase and its count, which stays within the delay. -/
theorem inv_blinkTick (h : s.Inv) : (blinkTick s).Inv := by
  obtain e | e | ⟨n, ph, hn, e⟩ := blinkTick_cases s <;> rw [e]
  · exact { h with blCnt_range := le_rfl }
  · exact { h with blCnt_range := le_rfl }
  · exact { h with blCnt_range := hn.trans h.blCnt_range }

theorem tick_keeps_inv (h : s.Inv) (e : tick s = .next t) : t.Inv := by
  obtain ⟨hf, -, e⟩ | ⟨hf, hm, e⟩ | ⟨hf, hm, e⟩ | ⟨-, -, rfl⟩ | ⟨-, -, rfl⟩ := tick_next_cases e
  · exact fetchTick_keeps_inv h hf e
  · exact harvestTick_keeps_inv h hf hm e
  · exact transmitTick_keeps_inv h hf hm e
  · exact h
  · exact inv_blinkTick h

end Steps

/-- Settles O54: each of the four events of R39 keeps the invariants. -/
theorem stepKeepsTheInvariants : Obligations.StepKeepsTheInvariants := by
  intro s t h e
  obtain ⟨-, rfl⟩ | ⟨-, rfl⟩ | ⟨ws, -, hl, rfl⟩ | ⟨-, e'⟩ := step_next_cases e
  · exact inv_resetEvent (step_next e).1
  · exact inv_raiseFault (inv_popInput h) _
  · exact inv_push (inv_popInput h) hl
  · exact tick_keeps_inv (inv_popInput h) e'

/-- Settles O56: the power-on state is checked field by field, and `State.reset` is one with well-formed parameters. -/
theorem invariantsAtReset : Obligations.InvariantsAtReset :=
  ⟨fun p h => ⟨boot_inv h, boot_histLegal p⟩, boot_inv (by decide), boot_histLegal _⟩

end Sys2Proof.Machine
end

section
/-! `PC` moves only when the command at `PC` completes (R22, R93). -/

namespace Sys2Proof.Machine

/-- `PC` stays, or the command at `PC`, of length `len`, completes. -/
def State.KeepsOrPassesPc (s t : State) : Prop :=
  t.pc = s.pc
  ∨ (t.mode = .fetch ∧ ∃ (i : Instr) (len : Nat), decodeAt s.prog s.pc = .command i len ∧ t.pc = s.pc + len)

section Steps

variable {s t : State}

theorem raiseFault_pc (c : FaultCause) (s : State) : (raiseFault c s).pc = s.pc := by
  rw [raiseFault_frame]

theorem blinkTick_pc (s : State) : (blinkTick s).pc = s.pc := by
  obtain e | e | ⟨n, ph, -, e⟩ := blinkTick_cases s <;> rw [e] <;> rfl

theorem exec_pc {i : Instr} {len : Nat} (hd : decodeAt s.prog s.pc = .command i len) (he : exec i s = .next t) :
    s.KeepsOrPassesPc t := by
  obtain ⟨-, rfl, -⟩ := decodeAt_eq_command hd
  obtain ⟨rfl, rfl⟩ | ⟨r, rfl, -, rfl⟩ | ⟨r, v, rfl, -, rfl⟩ | ⟨rfl, rfl⟩ | ⟨rfl, rfl⟩ | ⟨bytes, rfl, hne, rfl⟩
    | ⟨-, c, rfl⟩ := exec_next_cases he
  · exact .inl rfl
  · exact .inr ⟨rfl, _, _, hd, rfl⟩
  · exact .inr ⟨rfl, _, _, hd, rfl⟩
  · exact .inl rfl
  · exact .inr ⟨rfl, _, _, hd, rfl⟩
  · exact .inl rfl
  · exact .inl (raiseFault_pc c s)

theorem fetchTick_pc (e : fetchTick s = .next t) : s.KeepsOrPassesPc t := by
  obtain ⟨i, len, hd, he⟩ | ⟨c, -, rfl⟩ | ⟨-, rfl⟩ := fetchTick_next_cases e
  · exact exec_pc hd he
  · exact .inl (raiseFault_pc c s)
  · exact .inl rfl

/-- R152: the harvest passes its own command, which is the one at `PC`. -/
theorem harvestTick_pc (hd : decodeAt s.prog s.pc = .command .harvest 1) (e : harvestTick s = .next t) :
    s.KeepsOrPassesPc t := by
  obtain ⟨-, rfl⟩ | ⟨-, -, rfl⟩ := harvestTick_next_cases e
  · exact .inl rfl
  · by_cases hlast : (harvestStore s).hvK = 8
    · rw [harvestAdvance_last hlast]
      exact .inr ⟨rfl, _, _, hd, rfl⟩
    · rw [harvestAdvance_more hlast]
      exact .inl rfl

/-- R132: the transmission passes its own command, which is the one at `PC`. -/
theorem transmitTick_pc
    (hd : decodeAt s.prog s.pc = .command (.transmit s.txBuf) (1 + payloadWords s.txBuf.length))
    (e : transmitTick s = .next t) : s.KeepsOrPassesPc t := by
  obtain ⟨-, rfl⟩ | ⟨-, b, -, rfl⟩ := transmitTick_next_cases e
  · exact .inl rfl
  · by_cases hlast : (transmitSend b s).txI = (transmitSend b s).txBuf.length
    · rw [transmitAdvance_last hlast]
      exact .inr ⟨rfl, _, _, hd, rfl⟩
    · rw [transmitAdvance_more hlast]
      exact .inl rfl

theorem tick_pc (h : s.Inv) (e : tick s = .next t) : s.KeepsOrPassesPc t := by
  obtain ⟨-, -, e⟩ | ⟨-, hm, e⟩ | ⟨-, hm, e⟩ | ⟨-, -, rfl⟩ | ⟨-, -, rfl⟩ := tick_next_cases e
  · exact fetchTick_pc e
  · exact harvestTick_pc (h.harvest_command hm) e
  · exact transmitTick_pc (h.transmit_command hm) e
  · exact .inl rfl
  · exact .inl (blinkTick_pc s)

end Steps

/-- Settles O40: of the events only a tick moves `PC`, and by the invariants the command an engine runs is the one at
`PC`. -/
theorem pcMovesOnlyPastACompletedCommand : Obligations.PcMovesOnlyPastACompletedCommand := by
  intro s t h e hne
  obtain ⟨hr, -⟩ | ⟨-, rfl⟩ | ⟨ws, -, -, rfl⟩ | ⟨-, e'⟩ := step_next_cases e
  · exact absurd hr hne
  · exact .inl (raiseFault_pc _ _)
  · exact .inl rfl
  · exact (tick_pc (inv_popInput h) e' :)

end Sys2Proof.Machine
end

section
/-! No step looks at `HIST` (R35) or at `FCAUSE` (R21): two states that agree in every other field take steps of the same
outcome, to states that agree so again. -/

namespace Sys2Proof.Machine

/-- Two outcomes that are the same stop, or next states related by `R`. -/
inductive SameOutcome (R : State → State → Prop) :
    Host.Outcome State Fault Refusal → Host.Outcome State Fault Refusal → Prop
  | next {s s' : State} (h : R s s') : SameOutcome R (.next s) (.next s')
  | fault (r : Fault) : SameOutcome R (.fault r) (.fault r)
  | refused (r : Refusal) : SameOutcome R (.refused r) (.refused r)

/-- The states differ at most in the history, `a` and `b` each followed by the same events, and in the ghost cause, whose
two values are related by `Q`. -/
def AgreeButGhosts (Q : Option FaultCause → Option FaultCause → Prop) (a b : List BusEvent) (s s' : State) : Prop :=
  ∃ (es : List BusEvent) (c : Option FaultCause), Q s.fcause c ∧ s.hist = a ++ es
    ∧ s' = { s with hist := b ++ es, fcause := c }

section Steps

variable {Q : Option FaultCause → Option FaultCause → Prop} {a b : List BusEvent} {s s' : State}

/-- What a function that looks at neither the history nor the cause sees of two such states. -/
theorem AgreeButGhosts.observe {α : Type} (h : AgreeButGhosts Q a b s s') (f : State → α)
    (hf : ∀ (s : State) (l : List BusEvent) (c : Option FaultCause), f { s with hist := l, fcause := c } = f s) :
    f s' = f s := by
  obtain ⟨es, c, -, -, rfl⟩ := h
  exact hf s _ c

/-- Both states append the one event `ev`. -/
theorem agree_append {t t' : State} {es : List BusEvent} {c : Option FaultCause} {ev : BusEvent}
    (hh : s.hist = a ++ es) (hq : Q t.fcause c) (ht : t.hist = s.hist ++ [ev])
    (ht' : t' = { t with hist := b ++ es ++ [ev], fcause := c }) : AgreeButGhosts Q a b t t' :=
  ⟨es ++ [ev], c, hq, by rw [ht, hh, List.append_assoc], by rw [ht', List.append_assoc]⟩

theorem agree_popInput (h : AgreeButGhosts Q a b s s') : AgreeButGhosts Q a b (popInput s) (popInput s') := by
  obtain ⟨es, c, hq, hh, rfl⟩ := h
  exact ⟨es, c, hq, hh, rfl⟩

theorem agree_memWrite (h : AgreeButGhosts Q a b s s') (r : Handle) (v : Word) :
    AgreeButGhosts Q a b (memWrite r v s) (memWrite r v s') := by
  obtain ⟨es, c, hq, hh, rfl⟩ := h
  exact agree_append hh hq rfl rfl

theorem agree_complete (h : AgreeButGhosts Q a b s s') (len : Nat) :
    AgreeButGhosts Q a b (complete len s) (complete len s') := by
  obtain ⟨es, c, hq, hh, rfl⟩ := h
  exact ⟨es, c, hq, hh, rfl⟩

/-- R240: reset appends the marker and clears the cause. -/
theorem agree_resetEvent (hQ : ∀ c, Q c c) (h : AgreeButGhosts Q a b s s') :
    AgreeButGhosts Q a b (resetEvent s) (resetEvent s') := by
  obtain ⟨es, c, hq, hh, rfl⟩ := h
  exact agree_append hh (hQ none) rfl rfl

/-- R204: fault entry writes the cause without looking at it. -/
theorem agree_raiseFault (hQ : ∀ c, Q c c) (h : AgreeButGhosts Q a b s s') (k : FaultCause) :
    AgreeButGhosts Q a b (raiseFault k s) (raiseFault k s') := by
  obtain ⟨es, c, hq, hh, rfl⟩ := h
  obtain ⟨hf, e⟩ | ⟨hf, e⟩ := raiseFault_cases k s
  · rw [e, raiseFault_faulted k (by exact hf)]
    exact ⟨es, c, hq, hh, rfl⟩
  · rw [e, raiseFault_running k (by exact hf)]
    exact ⟨es, some k, hQ _, hh, rfl⟩

theorem agree_pushWords (h : AgreeButGhosts Q a b s s') (ws : List Word) :
    SameOutcome (AgreeButGhosts Q a b) (pushWords ws s) (pushWords ws s') := by
  obtain ⟨es, c, hq, hh, rfl⟩ := h
  unfold pushWords
  split
  · exact .next ⟨es, c, hq, hh, rfl⟩
  · exact .refused _

theorem agree_blinkWrite (h : AgreeButGhosts Q a b s s') (v : Word) (ph : BlinkPhase) :
    AgreeButGhosts Q a b (blinkWrite v ph s) (blinkWrite v ph s') := by
  obtain ⟨es, c, hq, hh, rfl⟩ := h
  exact agree_append hh hq rfl rfl

theorem agree_blinkDelay (h : AgreeButGhosts Q a b s s') (ph : BlinkPhase) :
    AgreeButGhosts Q a b (blinkDelay ph s) (blinkDelay ph s') := by
  obtain ⟨es, c, hq, hh, rfl⟩ := h
  unfold blinkDelay
  split <;> exact ⟨es, c, hq, hh, rfl⟩

theorem agree_blinkTick (h : AgreeButGhosts Q a b s s') : AgreeButGhosts Q a b (blinkTick s) (blinkTick s') := by
  have hph : s'.blPh = s.blPh := h.observe State.blPh fun _ _ _ => rfl
  unfold blinkTick
  rw [hph]
  split
  · exact agree_blinkWrite h _ _
  · exact agree_blinkDelay h _
  · exact agree_blinkWrite h _ _
  · exact agree_blinkDelay h _

theorem agree_exec (hQ : ∀ c, Q c c) (h : AgreeButGhosts Q a b s s') (i : Instr) :
    SameOutcome (AgreeButGhosts Q a b) (exec i s) (exec i s') := by
  cases i with
  | idle =>
    obtain ⟨es, c, hq, hh, rfl⟩ := h
    exact .next ⟨es, c, hq, hh, rfl⟩
  | peek r =>
    simp only [exec, execPeek]
    split
    · obtain ⟨es, c, hq, hh, rfl⟩ := h
      exact .next (agree_append hh hq rfl rfl)
    · exact .next (agree_raiseFault hQ h _)
  | poke r v =>
    simp only [exec, execPoke]
    split
    · exact .next (agree_complete (agree_memWrite h r v) 2)
    · exact .next (agree_raiseFault hQ h _)
  | harvest =>
    obtain ⟨es, c, hq, hh, rfl⟩ := h
    exact .next ⟨es, c, hq, hh, rfl⟩
  | transmit bytes =>
    cases bytes with
    | nil => exact .next (agree_complete h 1)
    | cons x xs =>
      obtain ⟨es, c, hq, hh, rfl⟩ := h
      exact .next ⟨es, c, hq, hh, rfl⟩
  | fault => exact .next (agree_raiseFault hQ h _)

theorem agree_fetchTick (hQ : ∀ c, Q c c) (h : AgreeButGhosts Q a b s s') :
    SameOutcome (AgreeButGhosts Q a b) (fetchTick s) (fetchTick s') := by
  have hprog : s'.prog = s.prog := h.observe State.prog fun _ _ _ => rfl
  have hpc : s'.pc = s.pc := h.observe State.pc fun _ _ _ => rfl
  unfold fetchTick
  rw [hprog, hpc]
  split
  · exact agree_exec hQ h _
  · exact .next (agree_raiseFault hQ h _)
  · split
    · exact .next h
    · exact .fault _

theorem agree_harvestPoll (h : AgreeButGhosts Q a b s s') : AgreeButGhosts Q a b (harvestPoll s) (harvestPoll s') := by
  obtain ⟨es, c, hq, hh, rfl⟩ := h
  exact agree_append hh hq rfl rfl

theorem agree_harvestStore (h : AgreeButGhosts Q a b s s') :
    AgreeButGhosts Q a b (harvestStore s) (harvestStore s') := by
  obtain ⟨es, c, hq, hh, rfl⟩ := h
  exact agree_append hh hq rfl rfl

theorem agree_harvestAdvance (h : AgreeButGhosts Q a b s s') :
    AgreeButGhosts Q a b (harvestAdvance s) (harvestAdvance s') := by
  obtain ⟨es, c, hq, hh, rfl⟩ := h
  unfold harvestAdvance
  split <;> exact ⟨es, c, hq, hh, rfl⟩

theorem agree_harvestTick (h : AgreeButGhosts Q a b s s') :
    SameOutcome (AgreeButGhosts Q a b) (harvestTick s) (harvestTick s') := by
  have hph : s'.hvPh = s.hvPh := h.observe State.hvPh fun _ _ _ => rfl
  have hk : s'.hvK = s.hvK := h.observe State.hvK fun _ _ _ => rfl
  unfold harvestTick harvestRead
  rw [hph, hk]
  split
  · exact .next (agree_harvestPoll h)
  · split
    · exact .next (agree_harvestAdvance (agree_harvestStore h))
    · exact .fault _

theorem agree_transmitPoll (h : AgreeButGhosts Q a b s s') :
    AgreeButGhosts Q a b (transmitPoll s) (transmitPoll s') := by
  obtain ⟨es, c, hq, hh, rfl⟩ := h
  exact agree_append hh hq rfl rfl

theorem agree_transmitSend (h : AgreeButGhosts Q a b s s') (x : Byte) :
    AgreeButGhosts Q a b (transmitSend x s) (transmitSend x s') := by
  obtain ⟨es, c, hq, hh, rfl⟩ := h
  exact agree_append hh hq rfl rfl

theorem agree_transmitAdvance (h : AgreeButGhosts Q a b s s') :
    AgreeButGhosts Q a b (transmitAdvance s) (transmitAdvance s') := by
  obtain ⟨es, c, hq, hh, rfl⟩ := h
  unfold transmitAdvance
  split <;> exact ⟨es, c, hq, hh, rfl⟩

theorem agree_transmitTick (h : AgreeButGhosts Q a b s s') :
    SameOutcome (AgreeButGhosts Q a b) (transmitTick s) (transmitTick s') := by
  have hph : s'.txPh = s.txPh := h.observe State.txPh fun _ _ _ => rfl
  have hbyte : s'.txBuf[s'.txI]? = s.txBuf[s.txI]? := h.observe (fun s => s.txBuf[s.txI]?) fun _ _ _ => rfl
  unfold transmitTick transmitWrite
  rw [hph, hbyte]
  split
  · exact .next (agree_transmitPoll h)
  · split
    · exact .fault _
    · exact .next (agree_transmitAdvance (agree_transmitSend h _))

theorem agree_tick (hQ : ∀ c, Q c c) (h : AgreeButGhosts Q a b s s') :
    SameOutcome (AgreeButGhosts Q a b) (tick s) (tick s') := by
  have hfs : s'.fs = s.fs := h.observe State.fs fun _ _ _ => rfl
  have hmode : s'.mode = s.mode := h.observe State.mode fun _ _ _ => rfl
  unfold tick
  rw [hfs, hmode]
  split
  · exact agree_fetchTick hQ h
  · exact agree_harvestTick h
  · exact agree_transmitTick h
  · exact .next h
  · exact .fault _
  · exact .next (agree_blinkTick h)
  · exact .fault _

theorem agree_takeEvent (hQ : ∀ c, Q c c) (h : AgreeButGhosts Q a b s s') (e : Event) :
    SameOutcome (AgreeButGhosts Q a b) (takeEvent e s) (takeEvent e s') := by
  cases e with
  | reset => exact .next (agree_resetEvent hQ h)
  | faultReq => exact .next (agree_raiseFault hQ h _)
  | push ws => exact agree_pushWords h ws
  | tick => exact agree_tick hQ h

/-- R21, R35: neither the history nor the cause decides a step, whatever reflexive relation the causes are in. -/
theorem agree_step (hQ : ∀ c, Q c c) (h : AgreeButGhosts Q a b s s') :
    SameOutcome (AgreeButGhosts Q a b) (step s) (step s') := by
  have hparams : s'.params = s.params := h.observe State.params fun _ _ _ => rfl
  have hevent : nextEvent s' = nextEvent s := h.observe nextEvent fun _ _ _ => rfl
  unfold step systemStep
  rw [hparams, hevent]
  split
  · exact agree_takeEvent hQ (agree_popInput h) _
  · exact .refused _

end Steps

/-- Settles O58: with the cause kept equal, a step appends the same events to either history. -/
theorem historyNeverDecidesAStep : Obligations.HistoryNeverDecidesAStep := by
  intro s h
  have start : AgreeButGhosts Eq s.hist h s { s with hist := h } := ⟨[], s.fcause, rfl, by simp, by simp⟩
  have same := agree_step (fun _ => rfl) start
  generalize step s = o, step { s with hist := h } = o' at same
  cases same with
  | next hagree =>
    obtain ⟨es, c, rfl, hh, rfl⟩ := hagree
    exact ⟨es, hh, rfl⟩
  | fault r => rfl
  | refused r => rfl

/-- Settles O59: with the causes left free, a step keeps every other field equal, the history included. -/
theorem ghostCauseNeverDecidesAStep : Obligations.GhostCauseNeverDecidesAStep := by
  intro s c
  have start : AgreeButGhosts (fun _ _ => True) s.hist s.hist s { s with fcause := c } :=
    ⟨[], c, trivial, by simp, by simp⟩
  have same := agree_step (fun _ => trivial) start
  generalize step s = o, step { s with fcause := c } = o' at same
  cases same with
  | next hagree =>
    obtain ⟨es, c', -, hh, rfl⟩ := hagree
    exact ⟨_, rfl, by rw [← hh]⟩
  | fault r => rfl
  | refused r => rfl

end Sys2Proof.Machine
end

section
/-! The push (R39, R40) and the state after power-on (R42). -/

namespace Sys2Proof.Machine

/-- Settles O38: a presented push is the event taken, and R11's bound decides whether it is refused. -/
theorem pushAppendsWords : Obligations.PushAppendsWords := by
  intro s ws rest hp hin
  have hstep : step s = pushWords ws (popInput s) := by rw [step_eq hp, nextEvent, hin]; rfl
  have hpop : popInput s = { s with inputs := rest } := by rw [popInput, hin]; rfl
  rw [hstep, hpop, pushWords]
  exact ⟨fun h => if_pos h, fun h => if_neg (Nat.not_le.2 h)⟩

/-- Settles O50: each field as the table of R42 gives it, with the parameters log entry 1 names for `State.reset`. -/
theorem powerOnStateIsAsTabled : Obligations.PowerOnStateIsAsTabled := by
  refine ⟨fun p => ⟨rfl, rfl, rfl, rfl, rfl, rfl, rfl, rfl, fun i hi => ?_, rfl, rfl, rfl, rfl, rfl, rfl, rfl, rfl, rfl⟩,
    Config.params, by decide, rfl⟩
  exact Vector.getElem_replicate hi

end Sys2Proof.Machine
end

section
/-! The register map, the configurations a step is defined for (R51 to R54), and the words after a decided command
(R68). -/

namespace Sys2Proof

/-- R53: there is no handle but the eleven. -/
theorem Handle.mem_all (h : Handle) : h ∈ Handle.all := by cases h <;> decide

theorem allDistinct_iff_nodup (as : List Word) : allDistinct as = true ↔ as.Nodup := by
  induction as with
  | nil => simp [allDistinct]
  | cons a as ih => simp [allDistinct, ih]

/-- R54 (a) and (b) with R11's bound on the first queue, said of the handles. -/
theorem Params.ok_iff (p : Params) :
    p.ok = true ↔
      (∀ h₁ h₂ : Handle, h₁ ≠ h₂ → h₁.addr p ≠ h₂.addr p) ∧ (∀ h : Handle, (h.addr p).extractLsb' 0 2 = 0#2)
        ∧ p.prog0.length ≤ queueLimit := by
  have hnodup : Handle.all.Nodup := by decide
  have hdistinct : (Handle.all.map (Handle.addr p)).Nodup
      ↔ ∀ h₁ h₂ : Handle, h₁ ≠ h₂ → h₁.addr p ≠ h₂.addr p := by
    simp only [List.nodup_map_iff_inj_on hnodup, Handle.mem_all, true_implies, ne_eq, not_imp_not]
  simp only [Params.ok, Bool.and_eq_true, allDistinct_iff_nodup, hdistinct, List.all_eq_true, Handle.mem_all,
    true_implies, beq_iff_eq, decide_eq_true_eq, and_assoc]

end Sys2Proof

namespace Sys2Proof.Machine

section Refusals

variable (s : State) (r : Refusal)

theorem exec_ne_refused (i : Instr) : exec i s ≠ .refused r := by
  cases i with
  | peek h => simp only [exec, execPeek]; split <;> simp
  | poke h v => simp only [exec, execPoke]; split <;> simp
  | transmit bytes => cases bytes <;> simp [exec, execTransmit]
  | idle | harvest | fault => simp [exec, execIdle, execHarvest, execFault]

theorem fetchTick_ne_refused : fetchTick s ≠ .refused r := by
  unfold fetchTick
  split
  · exact exec_ne_refused s r _
  · simp
  · split <;> simp

theorem harvestTick_ne_refused : harvestTick s ≠ .refused r := by
  unfold harvestTick harvestRead
  split
  · simp
  · split <;> simp

theorem transmitTick_ne_refused : transmitTick s ≠ .refused r := by
  unfold transmitTick transmitWrite
  split
  · simp
  · split <;> simp

/-- A tick may stop with a fault, where R39's table has no row, but is never refused. -/
theorem tick_ne_refused : tick s ≠ .refused r := by
  unfold tick
  split
  · exact fetchTick_ne_refused s r
  · exact harvestTick_ne_refused s r
  · exact transmitTick_ne_refused s r
  all_goals simp

/-- Of the events only a push can be refused, and R11's bound on the queue is the one reason. -/
theorem takeEvent_ne_badConfiguration (e : Event) : takeEvent e s ≠ .refused .badConfiguration := by
  cases e with
  | reset | faultReq => simp [takeEvent]
  | push ws => simp only [takeEvent, pushWords]; split <;> simp
  | tick => exact tick_ne_refused s _

/-- R54: a step is refused as a bad configuration exactly when the parameters fail their checks. -/
theorem step_eq_badConfiguration_iff : step s = .refused .badConfiguration ↔ s.params.ok = false := by
  constructor
  · intro h
    by_contra hok
    rw [step_eq (Bool.eq_true_of_not_eq_false hok)] at h
    exact takeEvent_ne_badConfiguration _ _ h
  · intro h
    simp [step, systemStep, h]

end Refusals

/-- Settles O11: the handles are enumerated, and each row of the table is the definition at that handle. -/
theorem registerMapIsAsTabled : Obligations.RegisterMapIsAsTabled :=
  ⟨Handle.mem_all, fun _ => rfl⟩

/-- Settles O12: a step is refused as a bad configuration exactly when a check of R54 or R11's bound fails. -/
theorem illFormedParametersAreRefused : Obligations.IllFormedParametersAreRefused := by
  intro s
  rw [Ne, step_eq_badConfiguration_iff, Bool.eq_false_iff, Ne, Params.ok_iff]
  constructor
  · rintro (⟨h₁, h₂, hne, halias⟩ | ⟨h, hmisaligned⟩) ⟨hdistinct, haligned, -⟩
    · exact hdistinct h₁ h₂ hne halias
    · exact hmisaligned (haligned h)
  · exact fun hdistinct haligned hlen hbad => hbad ⟨hdistinct, haligned, hlen⟩

/-- Settles O3: only POKE and TRANSMIT look past the head word, and no further than the words they wait for. -/
theorem laterWordsKeepADecidedCommand : Obligations.LaterWordsKeepADecidedCommand :=
  fun _ more h => decode_append h more

end Sys2Proof.Machine
end

section
/-! What a tick does to the bus and what it leaves alone: at most one access, and neither the queue nor the parameters
change (R11, R62, R68). -/

namespace Sys2Proof.Machine

/-- What a tick that takes `s` to `t` does to the fields for the world outside the engines: the queue and the parameters
stay, and there is at most one bus access, on a register that allows it; a read answers the draw of `s` and uses it up. -/
structure State.TicksTo (s t : State) : Prop where
  prog_eq : t.prog = s.prog
  params_eq : t.params = s.params
  access :
    (t.hist = s.hist ∧ t.draws = s.draws ∧ t.drawn = s.drawn)
    ∨ (∃ r : Handle, r.canRead = true ∧ t.hist = s.hist ++ [.rd (r.addr s.params) (draw s)]
        ∧ t.draws = s.draws.tail ∧ t.drawn = s.drawn + 1)
    ∨ (∃ (r : Handle) (v : Word), r.canWrite = true ∧ t.hist = s.hist ++ [.wr (r.addr s.params) v]
        ∧ t.draws = s.draws ∧ t.drawn = s.drawn)

section Steps

variable {s t : State}

theorem State.TicksTo.refl (s : State) : s.TicksTo s := ⟨rfl, rfl, .inl ⟨rfl, rfl, rfl⟩⟩

theorem memRead_ticksTo {r : Handle} (hr : r.canRead = true) (s : State) : s.TicksTo (memRead r s) :=
  ⟨rfl, rfl, .inr (.inl ⟨r, hr, rfl, rfl, rfl⟩)⟩

theorem memWrite_ticksTo {r : Handle} (hr : r.canWrite = true) (v : Word) (s : State) : s.TicksTo (memWrite r v s) :=
  ⟨rfl, rfl, .inr (.inr ⟨r, v, hr, rfl, rfl, rfl⟩)⟩

/-- R204: fault entry makes no access. -/
theorem raiseFault_ticksTo (c : FaultCause) (s : State) : s.TicksTo (raiseFault c s) := by
  rw [raiseFault_frame]
  exact { State.TicksTo.refl s with }

/-- R110, R111: of the commands only PEEK and POKE make an access as they start. -/
theorem exec_ticksTo {i : Instr} (e : exec i s = .next t) : s.TicksTo t := by
  obtain ⟨-, rfl⟩ | ⟨r, -, hr, rfl⟩ | ⟨r, v, -, hr, rfl⟩ | ⟨-, rfl⟩ | ⟨-, rfl⟩ | ⟨bytes, -, -, rfl⟩ | ⟨-, c, rfl⟩ :=
    exec_next_cases e
  · exact { State.TicksTo.refl s with }
  · exact { memRead_ticksTo hr s with }
  · exact { memWrite_ticksTo hr v s with }
  · exact { State.TicksTo.refl s with }
  · exact { State.TicksTo.refl s with }
  · exact { State.TicksTo.refl s with }
  · exact raiseFault_ticksTo c s

theorem fetchTick_ticksTo (e : fetchTick s = .next t) : s.TicksTo t := by
  obtain ⟨i, len, -, he⟩ | ⟨c, -, rfl⟩ | ⟨-, rfl⟩ := fetchTick_next_cases e
  · exact exec_ticksTo he
  · exact raiseFault_ticksTo c s
  · exact .refl _

/-- R151, R152: a poll reads the status, a read step one entropy word. -/
theorem harvestTick_ticksTo (e : harvestTick s = .next t) : s.TicksTo t := by
  obtain ⟨-, rfl⟩ | ⟨-, -, rfl⟩ := harvestTick_next_cases e
  · exact { memRead_ticksTo (r := .trngStatus) rfl s with }
  · have hread := memRead_ticksTo (r := .trngEntropy) rfl s
    by_cases hlast : (harvestStore s).hvK = 8
    · rw [harvestAdvance_last hlast]
      exact { hread with }
    · rw [harvestAdvance_more hlast]
      exact { hread with }

/-- R131, R132: a poll reads the status, a write step sends one byte. -/
theorem transmitTick_ticksTo (e : transmitTick s = .next t) : s.TicksTo t := by
  obtain ⟨-, rfl⟩ | ⟨-, b, -, rfl⟩ := transmitTick_next_cases e
  · exact { memRead_ticksTo (r := .uartTxStatus) rfl s with }
  · have hwrite := memWrite_ticksTo (r := .uartTxData) rfl (zextByte b) s
    by_cases hlast : (transmitSend b s).txI = (transmitSend b s).txBuf.length
    · rw [transmitAdvance_last hlast]
      exact { hwrite with }
    · rw [transmitAdvance_more hlast]
      exact { hwrite with }

/-- R207 to R210: the blink engine writes the LED or waits. -/
theorem blinkTick_ticksTo (s : State) : s.TicksTo (blinkTick s) := by
  obtain e | e | ⟨n, ph, -, e⟩ := blinkTick_cases s <;> rw [e]
  · exact { memWrite_ticksTo (r := .led) rfl ledOn s with }
  · exact { memWrite_ticksTo (r := .led) rfl ledOff s with }
  · exact { State.TicksTo.refl s with }

theorem tick_ticksTo (e : tick s = .next t) : s.TicksTo t := by
  obtain ⟨-, -, e⟩ | ⟨-, -, e⟩ | ⟨-, -, e⟩ | ⟨-, -, rfl⟩ | ⟨-, -, rfl⟩ := tick_next_cases e
  · exact fetchTick_ticksTo e
  · exact harvestTick_ticksTo e
  · exact transmitTick_ticksTo e
  · exact .refl _
  · exact blinkTick_ticksTo s

end Steps

/-- Settles O39: of the events only a reset and a push write the queue. -/
theorem queueWordsNeverChange : Obligations.QueueWordsNeverChange := by
  intro s t e
  obtain ⟨he, rfl⟩ | ⟨he, rfl⟩ | ⟨ws, he, -, rfl⟩ | ⟨he, e'⟩ := step_next_cases e
  · simp only [he]; rfl
  · simp only [he]; exact (raiseFault_ticksTo _ _).prog_eq
  · simp only [he]
  · simp only [he]; exact (tick_ticksTo e').prog_eq

/-- Settles O52: only a tick makes an access, and of the other events only a reset appends its marker. -/
theorem aStepMakesAtMostOneAccess : Obligations.AStepMakesAtMostOneAccess := by
  intro s t e
  obtain ⟨he, rfl⟩ | ⟨-, rfl⟩ | ⟨ws, -, -, rfl⟩ | ⟨-, e'⟩ := step_next_cases e
  · exact .inr (.inr (.inr ⟨he, rfl, rfl, rfl⟩))
  · rw [raiseFault_frame]
    exact .inl ⟨rfl, rfl, rfl⟩
  · exact .inl ⟨rfl, rfl, rfl⟩
  · obtain hnone | ⟨r, -, hread⟩ | ⟨r, v, -, hwrite⟩ := (tick_ticksTo e').access
    · exact .inl hnone
    · exact .inr (.inl ⟨_, hread⟩)
    · exact .inr (.inr (.inl ⟨_, v, hwrite⟩))

end Sys2Proof.Machine
end

section
/-! Words and their fields (R81, R83), and the payload words of R84 in both directions. -/

namespace Sys2Proof

/-- R81: a head word as a number. -/
theorem headWord_toNat (op h : BitVec 4) (len : BitVec 16) :
    (headWord op h len).toNat = op.toNat * 2 ^ 28 + h.toNat * 2 ^ 24 + len.toNat := by
  have hlen := len.isLt
  have hh := h.isLt
  simp only [headWord, BitVec.toNat_append, BitVec.toNat_ofNat]
  rw [← Nat.shiftLeft_add_eq_or_of_lt hlen, ← Nat.shiftLeft_add_eq_or_of_lt (by omega),
    ← Nat.shiftLeft_add_eq_or_of_lt hh]
  simp only [Nat.shiftLeft_eq]
  omega

/-- R83 format A: bits 27:0 are zero exactly in the head words without operands. -/
theorem formatA_iff (w : Word) : w.extractLsb' 0 28 = 0#28 ↔ w = headWord (opField w) 0#4 0#16 := by
  have hw := w.isLt
  simp only [BitVec.toNat_eq, headWord_toNat, opField, BitVec.extractLsb'_toNat, Nat.shiftRight_eq_div_pow,
    BitVec.toNat_ofNat]
  omega

/-- R83 format H: bits 23:0 are zero exactly in the head words whose only operand is a handle. -/
theorem formatH_iff (w : Word) : w.extractLsb' 0 24 = 0#24 ↔ w = headWord (opField w) (handleField w) 0#16 := by
  have hw := w.isLt
  simp only [BitVec.toNat_eq, headWord_toNat, opField, handleField, BitVec.extractLsb'_toNat,
    Nat.shiftRight_eq_div_pow, BitVec.toNat_ofNat]
  omega

/-- R83 format T: bits 27:16 are zero exactly in the head words whose only operand is a payload length. -/
theorem formatT_iff (w : Word) : w.extractLsb' 16 12 = 0#12 ↔ w = headWord (opField w) 0#4 (lenField w) := by
  have hw := w.isLt
  simp only [BitVec.toNat_eq, headWord_toNat, opField, lenField, BitVec.extractLsb'_toNat,
    Nat.shiftRight_eq_div_pow, BitVec.toNat_ofNat]
  omega

@[simp] theorem formatA_headWord (op : BitVec 4) : (headWord op 0#4 0#16).extractLsb' 0 28 = 0#28 := by
  rw [formatA_iff, opField_headWord]

@[simp] theorem formatH_headWord (op h : BitVec 4) : (headWord op h 0#16).extractLsb' 0 24 = 0#24 := by
  rw [formatH_iff, opField_headWord, handleField_headWord]

@[simp] theorem formatT_headWord (op : BitVec 4) (len : BitVec 16) :
    (headWord op 0#4 len).extractLsb' 16 12 = 0#12 := by
  rw [formatT_iff, opField_headWord, lenField_headWord]

/-- R84: unpacking the packed payload gives the payload and its padding bytes. -/
theorem unpackWords_packPayload (bytes : List Byte) :
    unpackWords (packPayload bytes) = bytes ++ List.replicate (4 * payloadWords bytes.length - bytes.length) 0#8 := by
  induction bytes using packPayload.induct with
  | case1 => rfl
  | case2 a => simp [packPayload, unpackWords, payloadWords]
  | case3 a b => simp [packPayload, unpackWords, payloadWords]
  | case4 a b c => simp [packPayload, unpackWords, payloadWords]
  | case5 a b c d rest ih =>
    have hpad : 4 * payloadWords (rest.length + 4) - (rest.length + 4) =
        4 * payloadWords rest.length - rest.length := by
      unfold payloadWords; omega
    simpa [packPayload, unpackWords, hpad] using ih

/-- R84: words are packed from their own bytes. -/
theorem packPayload_unpackWords (ws : List Word) : packPayload (unpackWords ws) = ws := by
  induction ws with
  | nil => rfl
  | cons w ws ih =>
    change bytesWord (beByte w 0) (beByte w 1) (beByte w 2) (beByte w 3) :: packPayload (unpackWords ws) = _
    rw [bytesWord_beByte, ih]

/-- R84: `n` bytes lie in `ceil(n/4)` words. -/
theorem length_take_unpackWords {n : Nat} {ws : List Word} (hws : ws.length = payloadWords n) :
    ((unpackWords ws).take n).length = n := by
  rw [List.length_take, unpackWords_length, hws]
  unfold payloadWords
  omega

/-- Decision D10: words whose padding is zero are the packed payload, so no bit of them is lost. -/
theorem packPayload_take_unpackWords {n : Nat} {ws : List Word} (hws : ws.length = payloadWords n)
    (hpad : ∀ b ∈ (unpackWords ws).drop n, b = 0#8) : packPayload ((unpackWords ws).take n) = ws := by
  have hzeros : (unpackWords ws).drop n = List.replicate (4 * payloadWords n - n) 0#8 :=
    List.eq_replicate_iff.2 ⟨by simp [hws], hpad⟩
  calc packPayload ((unpackWords ws).take n)
      = packPayload (unpackWords (packPayload ((unpackWords ws).take n))) := (packPayload_unpackWords _).symm
    _ = packPayload (unpackWords ws) := by
        rw [unpackWords_packPayload, length_take_unpackWords hws, ← hzeros, List.take_append_drop]
    _ = ws := packPayload_unpackWords ws

end Sys2Proof

namespace Sys2Proof.Machine

/-- R84: byte `j` of the words is byte `j mod 4` of word `j div 4`. -/
theorem unpackWords_eq_map (ws : List Word) :
    unpackWords ws = (List.range (4 * ws.length)).map (payloadByte ws) := by
  induction ws with
  | nil => rfl
  | cons w ws ih =>
    have hbyte (j : Nat) : payloadByte (w :: ws) (4 + j) = payloadByte ws j := by
      simp [payloadByte, Nat.add_comm 4 j]
    rw [List.length_cons, Nat.mul_succ, Nat.add_comm, List.range_add, List.map_append, List.map_map]
    simp only [Function.comp_def, hbyte, ← ih]
    rfl

/-- R84: a byte of the first words does not depend on the words after them. -/
theorem payloadByte_take {ws : List Word} {m j : Nat} (hj : j < 4 * m) :
    payloadByte (ws.take m) j = payloadByte ws j := by
  have : j / 4 < m := by omega
  simp [payloadByte, List.getD_eq_getElem?_getD, List.getElem?_take_of_lt this]

/-- R84: the bytes of the first `m` words. -/
theorem unpackWords_take {ws : List Word} {m : Nat} (hm : m ≤ ws.length) :
    unpackWords (ws.take m) = (List.range (4 * m)).map (payloadByte ws) := by
  rw [unpackWords_eq_map, List.length_take_of_le hm]
  exact List.map_congr_left fun j hj => payloadByte_take (List.mem_range.1 hj)

end Sys2Proof.Machine
end

section
/-! The decoder, one equation per row of R88, and its answers on the encodings of R83 to R85 (D10, R89). -/

namespace Sys2Proof

section Rows

variable {w : Word} (rest : List Word)

theorem decode_idle (hop : opField w = 0x0#4) : decode (w :: rest) = decodeFormatA .idle w := by
  simp [decode, hop]

theorem decode_peek (hop : opField w = 0x1#4) : decode (w :: rest) = decodePeek w := by
  simp [decode, hop]

theorem decode_poke (hop : opField w = 0x2#4) : decode (w :: rest) = decodePoke w rest := by
  simp [decode, hop]

theorem decode_harvest (hop : opField w = 0x3#4) : decode (w :: rest) = decodeFormatA .harvest w := by
  simp [decode, hop]

theorem decode_transmit (hop : opField w = 0x4#4) : decode (w :: rest) = decodeTransmit w rest := by
  simp [decode, hop]

theorem decode_fault (hop : opField w = 0xF#4) : decode (w :: rest) = decodeFormatA .fault w := by
  simp [decode, hop]

theorem decode_reservedOpcode (hlo : 0x5 ≤ (opField w).toNat) (hhi : (opField w).toNat ≤ 0xE) :
    decode (w :: rest) = .illegal .illegalCommand := by
  simp only [decode]
  split
  case h_7 => rfl
  all_goals omega

end Rows

/-- R87: the handles 11 to 15 name no register. -/
theorem ofNumber_eq_none {n : BitVec 4} (h : 11 ≤ n.toNat) : Handle.ofNumber? n = none := by
  unfold Handle.ofNumber?
  split
  case h_12 => rfl
  all_goals omega

section FormatH

variable {allowed : Handle → Bool} {w : Word}

theorem decodeFormatH_reserved (hz : w.extractLsb' 0 24 ≠ 0#24) :
    decodeFormatH allowed w = .error .illegalCommand := by
  rw [decodeFormatH, if_pos hz]

theorem decodeFormatH_badHandle (hz : w.extractLsb' 0 24 = 0#24) (hh : 11 ≤ (handleField w).toNat) :
    decodeFormatH allowed w = .error .badHandle := by
  rw [decodeFormatH, if_neg (not_not.2 hz), ofNumber_eq_none hh]

/-- R88: on the head word of a handle only the capability is left to check. -/
@[simp] theorem decodeFormatH_headWord (op : BitVec 4) (h : Handle) :
    decodeFormatH allowed (headWord op h.number 0#16) = if allowed h then .ok h else .error .access := by
  rw [decodeFormatH, if_neg (not_not.2 (formatH_headWord op h.number)), handleField_headWord, ofNumber_number]

/-- R83 format H: an accepted word is the head word of its handle. -/
theorem eq_headWord_of_decodeFormatH {h : Handle} (e : decodeFormatH allowed w = .ok h) :
    w = headWord (opField w) h.number 0#16 := by
  unfold decodeFormatH at e
  split at e
  · cases e
  next hz =>
  split at e
  · cases e
  next h' hh =>
  split at e
  · cases e
    rw [number_of_ofNumber hh]
    exact (formatH_iff w).1 (not_not.1 hz)
  · cases e

end FormatH

section FormatT

variable {n : BitVec 16} {ws : List Word}

/-- R88: `TRANSMIT n` without all its payload words. -/
theorem decode_transmit_wait (hlen : ws.length < payloadWords n.toNat) :
    decode (headWord 0x4#4 0#4 n :: ws) = .wait := by
  simp [decode_transmit, decodeTransmit, hlen]

/-- R88: `TRANSMIT n` with its payload words and zero padding. -/
theorem decode_transmit_command (hlen : payloadWords n.toNat ≤ ws.length)
    (hpad : ∀ b ∈ (unpackWords (ws.take (payloadWords n.toNat))).drop n.toNat, b = 0#8) :
    decode (headWord 0x4#4 0#4 n :: ws) =
      .command (.transmit ((unpackWords (ws.take (payloadWords n.toNat))).take n.toNat))
        (1 + payloadWords n.toNat) := by
  simpa [decode_transmit, decodeTransmit, hlen.not_gt] using hpad

/-- R88: `TRANSMIT n` with its payload words and a padding byte that is not zero. -/
theorem decode_transmit_illegal (hlen : payloadWords n.toNat ≤ ws.length)
    (hpad : ¬ ∀ b ∈ (unpackWords (ws.take (payloadWords n.toNat))).drop n.toNat, b = 0#8) :
    decode (headWord 0x4#4 0#4 n :: ws) = .illegal .illegalCommand := by
  simpa [decode_transmit, decodeTransmit, hlen.not_gt] using hpad

end FormatT

section Accepted

variable {w : Word} {rest : List Word} {i j : Instr} {len : Nat}

theorem decodeFormatA_take (hop : encode i = [headWord (opField w) 0#4 0#16])
    (e : decodeFormatA i w = .command j len) : (w :: rest).take len = encode j := by
  obtain ⟨rfl, rfl⟩ := decodeFormatA_eq_command e
  unfold decodeFormatA at e
  split at e
  · next hz => rw [hop, ← (formatA_iff w).1 hz]; rfl
  · cases e

theorem decodePeek_take (hop : opField w = 0x1#4) (e : decodePeek w = .command i len) :
    (w :: rest).take len = encode i := by
  unfold decodePeek at e
  split at e
  · cases e
  · next h hh =>
    cases e
    rw [eq_headWord_of_decodeFormatH hh, hop]
    rfl

theorem decodePoke_take (hop : opField w = 0x2#4) (e : decodePoke w rest = .command i len) :
    (w :: rest).take len = encode i := by
  unfold decodePoke at e
  split at e
  · cases e
  next h hh =>
  split at e
  · cases e
  · cases e
    rw [eq_headWord_of_decodeFormatH hh, hop]
    rfl

/-- R84: the payload words are the packed payload, as the padding is zero (D10). -/
theorem decodeTransmit_take (hop : opField w = 0x4#4) (e : decodeTransmit w rest = .command i len) :
    (w :: rest).take len = encode i := by
  simp only [decodeTransmit] at e
  split at e
  · cases e
  next hz =>
  split at e
  · cases e
  next hlen =>
  split at e
  · next hpad =>
    cases e
    have hws : (rest.take (payloadWords (lenField w).toNat)).length = payloadWords (lenField w).toNat :=
      List.length_take_of_le (Nat.not_lt.1 hlen)
    have hhead : w = headWord 0x4#4 0#4 (lenField w) := hop ▸ (formatT_iff w).1 (not_not.1 hz)
    rw [encode, length_take_unpackWords hws, packPayload_take_unpackWords hws (by simpa using hpad), BitVec.ofNat_toNat,
      BitVec.setWidth_eq, Nat.add_comm, List.take_succ_cons]
    exact congrArg (· :: _) hhead
  · cases e

/-- Decision D10: the words the decoder takes for a command are the command's encoding. -/
theorem take_of_decode_eq_command {ws : List Word} (e : decode ws = .command i len) : ws.take len = encode i := by
  unfold decode at e
  split at e
  · cases e
  · split at e
    · next hop => exact decodeFormatA_take (by rw [BitVec.eq_of_toNat_eq (y := 0x0#4) hop]; rfl) e
    · next hop => exact decodePeek_take (BitVec.eq_of_toNat_eq hop) e
    · next hop => exact decodePoke_take (BitVec.eq_of_toNat_eq hop) e
    · next hop => exact decodeFormatA_take (by rw [BitVec.eq_of_toNat_eq (y := 0x3#4) hop]; rfl) e
    · next hop => exact decodeTransmit_take (BitVec.eq_of_toNat_eq hop) e
    · next hop => exact decodeFormatA_take (by rw [BitVec.eq_of_toNat_eq (y := 0xF#4) hop]; rfl) e
    · cases e

end Accepted

/-- R30: the length field holds the length of every payload the spec gives. -/
theorem toNat_ofNat_payloadLength {bytes : List Byte} (hwf : (Instr.transmit bytes).wellFormed = true) :
    (BitVec.ofNat 16 bytes.length).toNat = bytes.length := by
  have hlt : bytes.length < 2 ^ 16 := Nat.lt_succ_of_le (of_decide_eq_true hwf)
  rw [BitVec.toNat_ofNat, Nat.mod_eq_of_lt hlt]

/-- R86: a command's length is the one of the head word of its encoding. -/
theorem headLength_of_encode {i : Instr} (hwf : i.wellFormed = true) {w : Word} {ws : List Word}
    (e : encode i = w :: ws) : headLength w = i.length := by
  cases i with
  | transmit bytes =>
    obtain ⟨rfl, -⟩ := List.cons.inj e
    rw [headLength, opField_headWord, lenField_headWord, toNat_ofNat_payloadLength hwf]
    rfl
  | idle | peek | poke | harvest | fault =>
    obtain ⟨rfl, -⟩ := List.cons.inj e
    simp [headLength, Instr.length, Instr.opcode]

/-- R83 to R88: the decoder reads a command from its encoding. -/
theorem decode_encode {i : Instr} (hwf : i.wellFormed = true) : decode (encode i) = .command i i.length := by
  cases i with
  | idle => simp [encode, Instr.opcode, decode_idle, decodeFormatA, Instr.length]
  | harvest => simp [encode, Instr.opcode, decode_harvest, decodeFormatA, Instr.length]
  | fault => simp [encode, Instr.opcode, decode_fault, decodeFormatA, Instr.length]
  | peek h =>
    have hr : h.canRead = true := hwf
    simp [encode, Instr.opcode, decode_peek, decodePeek, hr, Instr.length]
  | poke h v =>
    have hw : h.canWrite = true := hwf
    simp [encode, Instr.opcode, decode_poke, decodePoke, hw, Instr.length]
  | transmit bytes =>
    have hunpack : unpackWords ((packPayload bytes).take (payloadWords bytes.length)) =
        bytes ++ List.replicate (4 * payloadWords bytes.length - bytes.length) 0#8 := by
      rw [← packPayload_length, List.take_length, unpackWords_packPayload, packPayload_length]
    have hdecode := decode_transmit_command (n := BitVec.ofNat 16 bytes.length) (ws := packPayload bytes)
    rw [toNat_ofNat_payloadLength hwf, hunpack, List.drop_left, List.take_left, packPayload_length] at hdecode
    exact hdecode le_rfl fun b hb => List.eq_of_mem_replicate hb

theorem length_encode (i : Instr) : (encode i).length = i.length := by
  cases i with
  | transmit bytes => exact (Laws.EncodeLength.transmit bytes).1
  | idle | peek | poke | harvest | fault => rfl

end Sys2Proof
end

section
/-! The statements of 30_encoding.md about decode, encode and the assembler. -/

namespace Sys2Proof.Machine

/-- Settles O1: later words do not change what the decoder reads from an encoding. -/
theorem decodeOfEncodeIsTheCommand : Obligations.DecodeOfEncodeIsTheCommand := by
  intro i rest hwf
  have hdecode := decode_encode hwf
  exact ⟨by rw [decode_append (by simp [hdecode]), hdecode], length_encode i⟩

/-- Settles O2: no bit of an accepted command is free, its padding included. -/
theorem acceptedWordsAreTheEncoding : Obligations.AcceptedWordsAreTheEncoding := by
  intro ws i len e
  obtain ⟨hwf, hlen, hle⟩ := decode_eq_command e
  exact ⟨hwf, hlen, hle, take_of_decode_eq_command e⟩

theorem length_pos (i : Instr) : 0 < i.length := by
  cases i <;> simp [Instr.length]

/-- R86: the length of an accepted command is the one its head word gives. -/
theorem length_of_decode_cons {w : Word} {rest : List Word} {i : Instr} {len : Nat}
    (e : decode (w :: rest) = .command i len) : len = headLength w := by
  obtain ⟨hwf, rfl, -⟩ := decode_eq_command e
  have hencode := take_of_decode_eq_command e
  rw [List.take_cons (length_pos i)] at hencode
  exact (headLength_of_encode hwf hencode.symm).symm

/-- Settles O4: both lengths are the head word's. -/
theorem lengthIsDecidedByTheHeadWord : Obligations.LengthIsDecidedByTheHeadWord := by
  intro w r₁ r₂ i₁ i₂ l₁ l₂ e₁ e₂
  rw [length_of_decode_cons e₁, length_of_decode_cons e₂]

/-- Settles O6: the checks of R88 in their order, each before any word after the head word is looked at. -/
theorem reservedEncodingsAreIllegal : Obligations.ReservedEncodingsAreIllegal := by
  intro w rest
  refine ⟨fun ⟨hlo, hhi⟩ => decode_reservedOpcode rest hlo hhi, ?_, ?_, ?_, ?_⟩
  · rintro ⟨hop | hop | hop, hz⟩
    · rw [decode_idle rest hop, decodeFormatA, if_neg hz]
    · rw [decode_harvest rest hop, decodeFormatA, if_neg hz]
    · rw [decode_fault rest hop, decodeFormatA, if_neg hz]
  · rintro ⟨hop | hop, hz⟩
    · rw [decode_peek rest hop, decodePeek, decodeFormatH_reserved hz]
    · rw [decode_poke rest hop, decodePoke, decodeFormatH_reserved hz]
  · rintro ⟨hop | hop, hz, hh⟩
    · rw [decode_peek rest hop, decodePeek, decodeFormatH_badHandle hz hh]
    · rw [decode_poke rest hop, decodePoke, decodeFormatH_badHandle hz hh]
  · rintro ⟨hop, hz⟩
    rw [decode_transmit rest hop, decodeTransmit, if_pos hz]

/-- R53: the two registers whose access column has no R. -/
theorem canRead_eq_false_iff (h : Handle) : h.canRead = false ↔ h = .uartTxData ∨ h = .led := by
  cases h <;> decide

/-- R53: the six registers whose access column has no W. -/
theorem canWrite_eq_false_iff (h : Handle) :
    h.canWrite = false ↔ h = .uartRxStatus ∨ h = .uartRxData ∨ h = .uartRxCount ∨ h = .uartTxStatus
      ∨ h = .trngStatus ∨ h = .trngEntropy := by
  cases h <;> decide

/-- Settles O7: the handle is a register, so its capability alone decides, and a POKE's data word is any word. -/
theorem peekAndPokeDecodeByAccessRight : Obligations.PeekAndPokeDecodeByAccessRight := by
  intro h rest v
  have hpeek : 0x1#4 ++ h.number ++ 0#24 = headWord 0x1#4 h.number 0#16 := by cases h <;> rfl
  have hpoke : 0x2#4 ++ h.number ++ 0#24 = headWord 0x2#4 h.number 0#16 := by cases h <;> rfl
  simp only [hpeek, hpoke, ← canRead_eq_false_iff, ← canWrite_eq_false_iff,
    decode_peek, decode_poke, opField_headWord, decodePeek, decodePoke, decodeFormatH_headWord]
  refine ⟨?_, ?_, ?_⟩
  · cases h.canRead <;> rfl
  · cases h.canWrite <;> rfl
  · cases h.canWrite <;> rfl

/-- R84: the padding bytes are the bytes `n` on of the payload words. -/
theorem padding_zero_iff {n m : Nat} {ws : List Word} (hm : m ≤ ws.length) :
    (∀ b ∈ (unpackWords (ws.take m)).drop n, b = 0#8) ↔
      ∀ j, n ≤ j → j < 4 * m → payloadByte ws j = 0#8 := by
  rw [unpackWords_take hm, ← List.map_drop, List.forall_mem_map]
  simp only [List.mem_drop_iff_getElem, List.getElem_range, List.length_range]
  constructor
  · intro hz j hn hj
    exact hz j ⟨j - n, by omega, by omega⟩
  · rintro hz _ ⟨k, hk, rfl⟩
    exact hz _ (by omega) (by omega)

/-- Settles O8: the three rows of R88 for format T, with the bytes of the payload words numbered from 0. -/
theorem transmitPayloadDecodes : Obligations.TransmitPayloadDecodes := by
  intro n ws
  have hhead : 0x4000#16 ++ n = headWord 0x4#4 0#4 n := rfl
  rw [hhead]
  refine ⟨decode_transmit_wait, fun hlen hpad => ?_, fun hlen ⟨j, hn, hj, hne⟩ => ?_⟩
  · have hbytes := unpackWords_take (m := payloadWords n.toNat) hlen
    rw [decode_transmit_command hlen ((padding_zero_iff hlen).2 hpad), hbytes, ← List.map_take,
      List.take_range, Nat.min_eq_left (by unfold payloadWords; omega)]
    rfl
  · exact decode_transmit_illegal hlen fun hpad => hne ((padding_zero_iff hlen).1 hpad j hn hj)

/-- Settles O5: each word is run through the decoder. -/
theorem specWordsDecode : Obligations.SpecWordsDecode := by
  unfold Obligations.SpecWordsDecode
  decide

/-- Settles O10: each line is run through the assembler. -/
theorem assemblerLinesEncode : Obligations.AssemblerLinesEncode := by
  unfold Obligations.AssemblerLinesEncode
  decide

end Sys2Proof.Machine
end

section
/-! The fetch step (R92), and that no state of the invariants stops the machine (R39, R203). -/

namespace Sys2Proof.Machine

section Progress

variable {s : State}

/-- R92: every command has a next state. -/
theorem exec_answers_next (i : Instr) (s : State) : ∃ t, exec i s = .next t := by
  cases i with
  | peek h => simp only [exec, execPeek]; split <;> exact ⟨_, rfl⟩
  | poke h v => simp only [exec, execPoke]; split <;> exact ⟨_, rfl⟩
  | transmit bytes => cases bytes <;> exact ⟨_, rfl⟩
  | idle | harvest | fault => exact ⟨_, rfl⟩

/-- R22: a fetch step stops only beyond the queue. -/
theorem fetchTick_answers_next (h : s.Inv) : ∃ t, fetchTick s = .next t := by
  unfold fetchTick
  split
  · exact exec_answers_next _ s
  · exact ⟨_, rfl⟩
  · exact ⟨_, if_pos h.pc_range⟩

/-- R43.4: the harvest engine has an unfilled slice. -/
theorem harvestTick_answers_next (h : s.Inv) (hm : s.mode = .execHarvest) : ∃ t, harvestTick s = .next t := by
  unfold harvestTick
  split
  · exact ⟨_, rfl⟩
  · obtain ⟨-, hk, -⟩ := h.harvest_partial hm
    exact ⟨_, if_pos hk⟩

/-- R43.5: the transmit engine has a byte to send. -/
theorem transmitTick_answers_next (h : s.Inv) (hm : s.mode = .execTransmit) : ∃ t, transmitTick s = .next t := by
  unfold transmitTick
  split
  · exact ⟨_, rfl⟩
  · rw [transmitWrite, List.getElem?_eq_getElem (h.transmit_index hm)]
    exact ⟨_, rfl⟩

/-- R39 with R43.1: some row of the table covers the state. -/
theorem tick_answers_next (h : s.Inv) : ∃ t, tick s = .next t := by
  have hblink := h.faulted_iff_blink
  unfold tick
  split
  · exact fetchTick_answers_next h
  · exact harvestTick_answers_next h ‹_›
  · exact transmitTick_answers_next h ‹_›
  · exact ⟨_, rfl⟩
  · next hf hm => cases hf.symm.trans (hblink.2 hm)
  · exact ⟨_, rfl⟩
  · next hf hm => exact absurd (hblink.1 hf) hm

end Progress

/-- Settles O57: of the four events only a push and a tick can stop, a push at R11's bound and a tick where the
invariants fail. -/
theorem invariantStatesStepWithinTheQueueBound : Obligations.InvariantStatesStepWithinTheQueueBound := by
  intro s h hp hpush
  rw [step_eq hp]
  cases he : nextEvent s with
  | reset => exact ⟨_, rfl⟩
  | faultReq => exact ⟨_, rfl⟩
  | push ws => exact ⟨_, if_pos (hpush ws he)⟩
  | tick => exact tick_answers_next (inv_popInput h)

section Fetch

variable {s : State}

theorem fetchTick_command {i : Instr} {len : Nat} (hd : decodeAt s.prog s.pc = .command i len) :
    fetchTick s = exec i s := by
  rw [fetchTick, hd]

theorem fetchTick_illegal {c : FaultCause} (hd : decodeAt s.prog s.pc = .illegal c) :
    fetchTick s = .next (raiseFault c s) := by
  rw [fetchTick, hd]

theorem raiseFault_eq_enteredFault (c : FaultCause) (hf : s.fs = .running) : raiseFault c s = s.enteredFault c :=
  raiseFault_running c hf

end Fetch

/-- Settles O13: ending the presentation of the step leaves the words at `PC` as they are. -/
theorem fetchStepRunsTheDecodedCommand : Obligations.FetchStepRunsTheDecodedCommand := by
  intro s i len ⟨⟨hp, he⟩, hf, hm⟩ hd
  rw [step_fetch hp he hf hm]
  exact fetchTick_command (s := popInput s) hd

/-- Settles O14: the fault entry of R204 in a running state. -/
theorem fetchStepOfIllegalWordsEntersFault : Obligations.FetchStepOfIllegalWordsEntersFault := by
  intro s c ⟨⟨hp, he⟩, hf, hm⟩ hd
  rw [step_fetch hp he hf hm, fetchTick_illegal (s := popInput s) hd, raiseFault_eq_enteredFault (s := popInput s) c hf]
  rfl

/-- Settles O22: the guard of the term's meaning fails (log entry 9). -/
theorem termWithoutCapabilityEntersFault : Obligations.TermWithoutCapabilityEntersFault := by
  intro h v s hf
  rw [← raiseFault_eq_enteredFault .access hf]
  constructor
  · intro hr
    simp [exec, execPeek, hr]
  · intro hw
    simp [exec, execPoke, hw]

end Sys2Proof.Machine
end

section
/-! The register accesses: no step makes one its register does not allow (R113), and what PEEK and POKE do (R110, R111). -/

namespace Sys2Proof.Machine

section Steps

variable {s t : State}

/-- A step that appends one legal event keeps the history legal. -/
theorem histLegal_append (h : s.histLegal) {ev : BusEvent} (hp : t.params = s.params) (hh : t.hist = s.hist ++ [ev])
    (hev : ev.legal s.params) : t.histLegal := by
  unfold State.histLegal
  rw [hp, hh, List.forall_mem_append, List.forall_mem_singleton]
  exact ⟨h, hev⟩

/-- R113: the access of a tick, if it makes one, is on a register that allows it. -/
theorem State.TicksTo.keeps_histLegal (ht : s.TicksTo t) (h : s.histLegal) : t.histLegal := by
  obtain ⟨hh, -⟩ | ⟨r, hr, hh, -⟩ | ⟨r, v, hw, hh, -⟩ := ht.access
  · unfold State.histLegal
    rwa [ht.params_eq, hh]
  · exact histLegal_append h ht.params_eq hh ⟨r, hr, rfl⟩
  · exact histLegal_append h ht.params_eq hh ⟨r, hw, rfl⟩

end Steps

/-- Settles O53: a reset appends its marker, fault entry and a push make no access, and a tick's access is legal. -/
theorem stepKeepsAccessesOnLegalRegisters : Obligations.StepKeepsAccessesOnLegalRegisters := by
  intro s t h e
  have hpop : (popInput s).histLegal := h
  obtain ⟨-, rfl⟩ | ⟨-, rfl⟩ | ⟨ws, -, -, rfl⟩ | ⟨-, e'⟩ := step_next_cases e
  · exact histLegal_append hpop rfl rfl trivial
  · exact (raiseFault_ticksTo _ _).keeps_histLegal hpop
  · exact h
  · exact (tick_ticksTo e').keeps_histLegal hpop

/-- R110: the meaning of PEEK where the register's access column has R. -/
theorem exec_peek_of_canRead {r : Handle} (hr : r.canRead = true) (s : State) :
    exec (.peek r) s =
      .next (complete 1 { memRead r s with rdata := some (draw s), resp := s.resp ++ [draw s] }) :=
  if_pos hr

/-- R111: the meaning of POKE where the register's access column has W. -/
theorem exec_poke_of_canWrite {r : Handle} (hw : r.canWrite = true) (v : Word) (s : State) :
    exec (.poke r v) s = .next (complete 2 (memWrite r v s)) :=
  if_pos hw

/-- Settles O15: the two registers left out are the ones without R. -/
theorem peekReadsTheRegister : Obligations.PeekReadsTheRegister := by
  intro h s hdata hled
  have hr : h.canRead = true := by
    rw [← Bool.not_eq_false, canRead_eq_false_iff]
    exact not_or.2 ⟨hdata, hled⟩
  exact exec_peek_of_canRead hr s

/-- Settles O16: the five registers named are the ones with W. -/
theorem pokeWritesTheRegister : Obligations.PokeWritesTheRegister := by
  intro h v s hreg
  have hw : h.canWrite = true := by
    obtain rfl | rfl | rfl | rfl | rfl := hreg <;> rfl
  exact exec_poke_of_canWrite hw v s

end Sys2Proof.Machine
end

section
/-! The transmit engine (41_uart_transmit.md): how TRANSMIT starts it, and its two steps. -/

namespace Sys2Proof.Machine

/-- Settles O17: the arm of the empty payload is the completion alone. -/
theorem transmitOfNothingCompletesAtOnce : Obligations.TransmitOfNothingCompletesAtOnce := fun _ => rfl

/-- Settles O18: a payload that is not empty takes the arm that starts the engine, whatever its bytes. -/
theorem transmitStartsTheEngine : Obligations.TransmitStartsTheEngine := by
  intro bytes s hne
  obtain ⟨b, bs, rfl⟩ := List.exists_cons_of_ne_nil hne
  rfl

theorem zextByte_eq_append (b : Byte) : zextByte b = 0#24 ++ b := BitVec.setWidth_eq_append (by decide)

section Steps

variable {s : State}

/-- R131. -/
theorem step_transmitPoll (ht : s.atTick) (hf : s.fs = .running) (hm : s.mode = .execTransmit) (hph : s.txPh = .poll) :
    step s = .next (transmitPoll (popInput s)) := by
  obtain ⟨hp, he⟩ := ht
  simp only [step_transmit hp he hf hm, transmitTick, popInput_txPh, hph]

/-- R132, in a state with a byte to send. -/
theorem step_transmitWrite (ht : s.atTick) (hf : s.fs = .running) (hm : s.mode = .execTransmit) (hph : s.txPh = .write)
    {b : Byte} (hb : s.txBuf[s.txI]? = some b) :
    step s = .next (transmitAdvance (transmitSend b (popInput s))) := by
  obtain ⟨hp, he⟩ := ht
  simp only [step_transmit hp he hf hm, transmitTick, transmitWrite, popInput_txPh, popInput_txBuf, popInput_txI, hph, hb]

end Steps

/-- Settles O23: the poll step's read, with the phase decided by the whole word. -/
theorem transmitPollStep : Obligations.TransmitPollStep := by
  intro s ht hf hm hph
  rw [step_transmitPoll ht hf hm hph, transmitPoll, transmitPhase_eq]
  rfl

/-- Settles O24: the byte is written, and whether it was the last decides how the engine goes on. -/
theorem transmitWriteStep : Obligations.TransmitWriteStep := by
  intro s h ht hf hm hph
  rw [step_transmitWrite ht hf hm hph (List.getElem?_eq_getElem h), ← zextByte_eq_append]
  by_cases hlast : s.txI + 1 = s.txBuf.length
  · rw [transmitAdvance_last (s := transmitSend _ (popInput s)) hlast]
    simp only [if_pos hlast, ← hph]
    rfl
  · rw [transmitAdvance_more (s := transmitSend _ (popInput s)) hlast]
    simp only [if_neg hlast, ← hm]
    rfl

end Sys2Proof.Machine
end

section
/-! Runs of the transmit engine with nothing presented: the polls of one byte, the round of one byte, and the rounds of a
whole payload (R133, R135). -/

namespace Sys2Proof.Machine

/-- `s` after reads of the register `r` that drew the words `vs`, with the words `rest` still to be drawn. -/
def State.afterReads (r : Handle) (vs rest : List Word) (s : State) : State :=
  { s with
    hist := s.hist ++ vs.map (.rd (r.addr s.params))
    draws := rest
    drawn := s.drawn + vs.length }

/-- R130: `s` with the transmit engine started on `bytes`. -/
def State.startedTransmit (bytes : List Byte) (s : State) : State :=
  { s with txBuf := bytes, txI := 0, txPh := .poll, mode := .execTransmit }

/-- R131: `s` after the status reads of the round `r`, about to write its byte. -/
def State.afterPolls (r : TransmitRound) (rest : List Word) (s : State) : State :=
  { s.afterReads .uartTxStatus r.draws rest with txPh := .write }

/-- R133: `s` after the rounds of some bytes of the payload, before the engine decides how to go on. -/
def State.afterRounds (rounds : List TransmitRound) (rest : List Word) (s : State) : State :=
  { s with
    hist := s.hist ++ rounds.flatMap (TransmitRound.events s.params)
    txI := s.txI + rounds.length
    txPh := .write
    draws := rest
    drawn := s.drawn + (rounds.flatMap TransmitRound.draws).length }

/-- The transmit engine is in the phase `ph`, with nothing presented, under parameters a step is defined for. -/
structure State.InTransmit (ph : TransmitPhase) (s : State) : Prop where
  params_ok : s.params.ok = true
  quiet : s.inputs = []
  running : s.fs = .running
  transmitting : s.mode = .execTransmit
  phase : s.txPh = ph

section States

variable {s : State} {ph : TransmitPhase}

theorem afterReads_nil (r : Handle) (s : State) : s.afterReads r [] s.draws = s := by
  simp [State.afterReads]

theorem afterReads_afterReads (r : Handle) (us vs mid rest : List Word) (s : State) :
    (s.afterReads r us mid).afterReads r vs rest = s.afterReads r (us ++ vs) rest := by
  simp [State.afterReads, Nat.add_assoc]

theorem memRead_of_scripted (r : Handle) {v : Word} {rest : List Word} (h : s.draws = v :: rest) :
    memRead r s = s.afterReads r [v] rest := by
  rw [memRead, draw_of_scripted h, h]
  rfl

/-- A round is its status reads and then the write of its byte. -/
theorem transmitSend_afterPolls (r : TransmitRound) (rest : List Word) (s : State) :
    transmitSend r.byte (s.afterPolls r rest) = s.afterRounds [r] rest := by
  simp [transmitSend, memWrite, State.afterPolls, State.afterReads, State.afterRounds, TransmitRound.events,
    TransmitRound.draws, zextByte_eq_append, Handle.addr, Handle.selector, Handle.offset]

/-- The round of a byte and then the rounds of the bytes that follow are the rounds of them all. -/
theorem afterRounds_cons (r : TransmitRound) (rs : List TransmitRound) (mid rest : List Word) (s : State) :
    State.afterRounds rs rest { s.afterRounds [r] mid with txPh := .poll } = s.afterRounds (r :: rs) rest := by
  simp [State.afterRounds, Nat.add_assoc, Nat.add_comm 1]

theorem State.InTransmit.atTick (h : s.InTransmit ph) : s.atTick := ⟨h.params_ok, nextEvent_of_quiet h.quiet⟩

theorem State.InTransmit.afterReads (h : s.InTransmit ph) (r : Handle) (vs rest : List Word) :
    (s.afterReads r vs rest).InTransmit ph := { h with }

theorem State.InTransmit.afterPolls (h : s.InTransmit ph) (r : TransmitRound) (rest : List Word) :
    (s.afterPolls r rest).InTransmit .write := { h with phase := rfl }

end States

section Runs

variable {s : State}

/-- R131, with the status the poll draws. -/
theorem step_poll_of_scripted (h : s.InTransmit .poll) {v : Word} {rest : List Word} (hd : s.draws = v :: rest) :
    step s = .next { s.afterReads .uartTxStatus [v] rest with txPh := if v = 0#32 then .poll else .write } := by
  rw [step_transmitPoll h.atTick h.running h.transmitting h.phase, popInput_of_quiet h.quiet, transmitPoll,
    transmitPhase_eq, memRead_of_scripted _ hd, draw_of_scripted hd]

/-- R131, with a status that is not ready. -/
theorem step_busyPoll (h : s.InTransmit .poll) {rest : List Word} (hd : s.draws = 0#32 :: rest) :
    step s = .next (s.afterReads .uartTxStatus [0#32] rest) := by
  rw [step_poll_of_scripted h hd, if_pos rfl, ← h.phase]
  rfl

/-- R132, with nothing presented. -/
theorem step_write_of_quiet (h : s.InTransmit .write) {b : Byte} (hb : s.txBuf[s.txI]? = some b) :
    step s = .next (transmitAdvance (transmitSend b s)) := by
  rw [step_transmitWrite h.atTick h.running h.transmitting h.phase hb, popInput_of_quiet h.quiet]

/-- R135: the engine polls once a tick for as long as the status reads zero. -/
theorem runSteps_busyPolls {busy : List Word} (hbusy : ∀ b ∈ busy, b = 0#32) (h : s.InTransmit .poll)
    {rest : List Word} (hd : s.draws = busy ++ rest) :
    runSteps busy.length s = .next (s.afterReads .uartTxStatus busy rest) := by
  induction busy generalizing s with
  | nil =>
    obtain rfl : s.draws = rest := hd
    rw [afterReads_nil, List.length_nil, runSteps_zero]
  | cons b busy ih =>
    obtain ⟨rfl, hrest⟩ := List.forall_mem_cons.1 hbusy
    rw [List.cons_append] at hd
    rw [List.length_cons, runSteps_next (step_busyPoll h hd), ih hrest (h.afterReads _ _ _) rfl, afterReads_afterReads,
      List.singleton_append]

/-- R133: the first status that is not zero ends the polls of a byte. -/
theorem runSteps_polls {r : TransmitRound} (hr : r.answers) (h : s.InTransmit .poll) {rest : List Word}
    (hd : s.draws = r.draws ++ rest) : runSteps (r.busy.length + 1) s = .next (s.afterPolls r rest) := by
  obtain ⟨hbusy, hready⟩ := hr
  have hd : s.draws = r.busy ++ r.status :: rest := by simp [hd, TransmitRound.draws]
  have hpoll : step (s.afterReads .uartTxStatus r.busy (r.status :: rest)) = .next (s.afterPolls r rest) := by
    rw [step_poll_of_scripted (h.afterReads _ _ _) rfl, if_neg hready, afterReads_afterReads]
    rfl
  rw [runSteps_add (runSteps_busyPolls hbusy h hd), runSteps_next hpoll, runSteps_zero]

/-- R133, for one byte, with the ticks of 95_test_vectors.md section 2.4. -/
theorem runSteps_round {r : TransmitRound} (hr : r.answers) (h : s.InTransmit .poll)
    (hb : s.txBuf[s.txI]? = some r.byte) {rest : List Word} (hd : s.draws = r.draws ++ rest) :
    runSteps (roundTicks r.busy) s = .next (transmitAdvance (s.afterRounds [r] rest)) := by
  rw [roundTicks, runSteps_add (runSteps_polls hr h hd) 1, runSteps_next (step_write_of_quiet (h.afterPolls r rest) hb),
    runSteps_zero, transmitSend_afterPolls]

/-- R133: from a poll, the engine makes the rounds of the bytes not yet sent, in order. -/
theorem runSteps_rounds {rounds : List TransmitRound} (hne : rounds ≠ []) (hall : ∀ r ∈ rounds, r.answers)
    (h : s.InTransmit .poll) (hb : s.txBuf.drop s.txI = rounds.map TransmitRound.byte) {rest : List Word}
    (hd : s.draws = rounds.flatMap TransmitRound.draws ++ rest) :
    runSteps (rounds.map (fun r => roundTicks r.busy)).sum s = .next (transmitAdvance (s.afterRounds rounds rest)) := by
  induction rounds, hne using List.recNeNil generalizing s with
  | singleton r =>
    have hbyte : s.txBuf[s.txI]? = some r.byte := by simp [← List.head?_drop, hb]
    rw [List.flatMap_singleton] at hd
    simpa using runSteps_round (hall r (by simp)) h hbyte hd
  | cons r rs hne ih =>
    obtain ⟨hr, hrs⟩ := List.forall_mem_cons.1 hall
    have hbyte : s.txBuf[s.txI]? = some r.byte := by simp [← List.head?_drop, hb]
    have htail : s.txBuf.drop (s.txI + 1) = rs.map TransmitRound.byte := by simp [← List.tail_drop, hb]
    have hmore : s.txI + 1 ≠ s.txBuf.length := by
      intro hlast
      rw [hlast, List.drop_length] at htail
      exact hne (List.map_eq_nil_iff.1 htail.symm)
    rw [List.flatMap_cons, List.append_assoc] at hd
    have hlater := ih (s := { s.afterRounds [r] (rs.flatMap TransmitRound.draws ++ rest) with txPh := .poll }) hrs
      { h with phase := rfl } htail rfl
    rw [List.map_cons, List.sum_cons, runSteps_add (runSteps_round hr h hbyte hd),
      transmitAdvance_more (s := s.afterRounds [r] _) hmore, hlater, afterRounds_cons]

end Runs

/-- Settles O26: the zeros ahead are the busy polls of a byte whose ready status does not come. -/
theorem transmitPollHasNoTimeout : Obligations.TransmitPollHasNoTimeout := by
  intro n s rest hp hq hf hm hph hd
  have hpolls := runSteps_busyPolls (fun b => List.eq_of_mem_replicate) ⟨hp, hq, hf, hm, hph⟩ hd
  rw [State.afterReads, List.length_replicate, List.map_replicate] at hpolls
  exact hpolls

/-- Settles O25: the fetch step starts the engine at the first byte, and the rounds of the whole payload end in the
completion of the command. -/
theorem transmitSendsEachByteAfterAReadyStatus : Obligations.TransmitSendsEachByteAfterAReadyStatus := by
  intro s rounds rest hp hq hf hm hne hdec hr hd
  have hfetch : step s = .next (s.startedTransmit (rounds.map TransmitRound.byte)) := by
    rw [step_fetch hp (nextEvent_of_quiet hq) hf hm, popInput_of_quiet hq, fetchTick_command hdec]
    exact transmitStartsTheEngine _ s (mt List.map_eq_nil_iff.1 hne)
  have hrounds := runSteps_rounds (s := s.startedTransmit (rounds.map TransmitRound.byte)) hne hr
    ⟨hp, hq, hf, rfl, rfl⟩ rfl hd
  rw [transmitAdvance_last (by simp [State.afterRounds, State.startedTransmit])] at hrounds
  refine ⟨_, by rw [Nat.add_comm, runSteps_next hfetch, hrounds], ?_⟩
  simp [State.afterRounds, State.startedTransmit, payloadWords, hm]

end Sys2Proof.Machine
end

section
/-! The bytes of an entropy word (R153), how HARVEST starts the harvest engine (R150), and the engine's two steps (R151,
R152). -/

namespace Sys2Proof

theorem beByte_eq_ushiftRight (w : Word) (j : Nat) : beByte w j = (w >>> (24 - 8 * j)).setWidth 8 := by
  ext i hi
  simp [beByte]

/-- Masking with `0xFF` before a word is cut to a byte changes nothing. -/
theorem setWidth_and_0xFF (w : Word) : (w &&& 0xFF#32).setWidth 8 = w.setWidth 8 := by
  rw [BitVec.setWidth_and]
  exact BitVec.and_allOnes

end Sys2Proof

namespace Sys2Proof.Machine

/-- Settles O29: a byte of a word is the word shifted and cut to 8 bits, and the mask is the cut. -/
theorem wordUnpacksBigEndian : Obligations.WordUnpacksBigEndian := by
  intro w
  refine ⟨beByte_eq_ushiftRight w 0, ?_, ?_, ?_, bytesWord_beByte w⟩
  · rw [setWidth_and_0xFF, beByte_eq_ushiftRight]
  · rw [setWidth_and_0xFF, beByte_eq_ushiftRight]
  · rw [setWidth_and_0xFF, beByte_eq_ushiftRight, Nat.sub_self, BitVec.ushiftRight_zero]

/-- R150: `s` with the buffer discarded and the harvest engine started. -/
def State.startedHarvest (s : State) : State :=
  { s with entValid := false, entBuf := Vector.replicate 32 none, hvK := 0, hvPh := .poll, mode := .execHarvest }

theorem exec_harvest (s : State) : exec .harvest s = .next s.startedHarvest := rfl

/-- Settles O19: the cells of the new buffer are those of a vector of empty cells. -/
theorem harvestStartsTheEngine : Obligations.HarvestStartsTheEngine :=
  fun s => ⟨_, exec_harvest s, fun _ hi => Vector.getElem_replicate hi, rfl⟩

section Steps

variable {s : State}

/-- R151. -/
theorem step_harvestPoll (ht : s.atTick) (hf : s.fs = .running) (hm : s.mode = .execHarvest) (hph : s.hvPh = .poll) :
    step s = .next (harvestPoll (popInput s)) := by
  obtain ⟨hp, he⟩ := ht
  simp only [step_harvest hp he hf hm, harvestTick, popInput_hvPh, hph]

/-- R152, in a state with an unfilled slice. -/
theorem step_harvestRead (ht : s.atTick) (hf : s.fs = .running) (hm : s.mode = .execHarvest) (hph : s.hvPh = .read)
    (hk : s.hvK < 8) : step s = .next (harvestAdvance (harvestStore (popInput s))) := by
  obtain ⟨hp, he⟩ := ht
  simp only [step_harvest hp he hf hm, harvestTick, popInput_hvPh, hph]
  exact if_pos hk

end Steps

/-- Settles O27: the poll step's read, with the phase decided by bit 0 of the word. -/
theorem harvestPollStep : Obligations.HarvestPollStep := by
  intro s ht hf hm hph
  rw [step_harvestPoll ht hf hm hph, harvestPoll, trngReady_eq]
  rfl

/-- Settles O28: the word is stored in its slice, and whether it was the eighth decides how the engine goes on. -/
theorem harvestReadStep : Obligations.HarvestReadStep := by
  intro s ht hf hm hph hk
  have hcells := storeSlice_getElem s.hvK (draw s) s.entBuf
  rw [step_harvestRead ht hf hm hph hk]
  by_cases hlast : s.hvK = 7
  · rw [harvestAdvance_last (s := harvestStore (popInput s)) (congrArg (· + 1) hlast)]
    refine ⟨_, rfl, hcells, ?_⟩
    simp only [if_pos hlast, ← hph]
    rfl
  · rw [harvestAdvance_more (s := harvestStore (popInput s)) (fun h => hlast (Nat.succ.inj h))]
    refine ⟨_, rfl, hcells, ?_⟩
    simp only [if_neg hlast, ← hm]
    rfl

end Sys2Proof.Machine
end

section
/-! What a step does to the entropy buffer: only a reset, the fetch of a HARVEST and the read step of the harvest engine
write it, and only fault entry hides it besides (R154, R158, R159). -/

namespace Sys2Proof.Machine

/-- The buffer stays, and it is as valid as before or hidden by the entry of a fault (R204). -/
def State.KeepsOrHidesBuffer (s t : State) : Prop :=
  t.entBuf = s.entBuf ∧ (t.entValid = s.entValid ∨ (t.fs = .faulted ∧ t.entValid = false))

/-- A tick that takes `s` to `t` is one of the two that write the buffer: the fetch of a HARVEST (R150), or the read step,
which makes the buffer valid with the eighth word only (R152, R154). -/
def State.WritesBuffer (s t : State) : Prop :=
  (s.mode = .fetch ∧ decodeAt s.prog s.pc = .command .harvest 1 ∧ t.entValid = false)
  ∨ (s.mode = .execHarvest ∧ s.hvPh = .read ∧ (t.entValid = s.entValid ∨ (s.hvK = 7 ∧ t.hvK = 8)))

section Steps

variable {s t : State}

theorem raiseFault_buffer (c : FaultCause) (s : State) : s.KeepsOrHidesBuffer (raiseFault c s) := by
  obtain ⟨-, e⟩ | ⟨-, e⟩ := raiseFault_cases c s <;> rw [e]
  · exact ⟨rfl, .inl rfl⟩
  · exact ⟨rfl, .inr ⟨rfl, rfl⟩⟩

theorem exec_buffer {i : Instr} (e : exec i s = .next t) :
    s.KeepsOrHidesBuffer t ∨ (i = .harvest ∧ t.entValid = false) := by
  obtain ⟨-, rfl⟩ | ⟨r, -, -, rfl⟩ | ⟨r, v, -, -, rfl⟩ | ⟨hi, rfl⟩ | ⟨-, rfl⟩ | ⟨bytes, -, -, rfl⟩ | ⟨-, c, rfl⟩ :=
    exec_next_cases e
  · exact .inl ⟨rfl, .inl rfl⟩
  · exact .inl ⟨rfl, .inl rfl⟩
  · exact .inl ⟨rfl, .inl rfl⟩
  · exact .inr ⟨hi, rfl⟩
  · exact .inl ⟨rfl, .inl rfl⟩
  · exact .inl ⟨rfl, .inl rfl⟩
  · exact .inl (raiseFault_buffer c s)

theorem fetchTick_buffer (hm : s.mode = .fetch) (e : fetchTick s = .next t) :
    s.KeepsOrHidesBuffer t ∨ s.WritesBuffer t := by
  obtain ⟨i, len, hd, he⟩ | ⟨c, -, rfl⟩ | ⟨-, rfl⟩ := fetchTick_next_cases e
  · obtain hkeep | ⟨rfl, hv⟩ := exec_buffer he
    · exact .inl hkeep
    · obtain ⟨-, rfl, -⟩ := decodeAt_eq_command hd
      exact .inr (.inl ⟨hm, hd, hv⟩)
  · exact .inl (raiseFault_buffer c s)
  · exact .inl ⟨rfl, .inl rfl⟩

theorem harvestTick_buffer (hm : s.mode = .execHarvest) (e : harvestTick s = .next t) :
    s.KeepsOrHidesBuffer t ∨ s.WritesBuffer t := by
  obtain ⟨-, rfl⟩ | ⟨hph, -, rfl⟩ := harvestTick_next_cases e
  · exact .inl ⟨rfl, .inl rfl⟩
  · by_cases hlast : (harvestStore s).hvK = 8
    · rw [harvestAdvance_last hlast]
      exact .inr (.inr ⟨hm, hph, .inr ⟨Nat.succ.inj hlast, hlast⟩⟩)
    · rw [harvestAdvance_more hlast]
      exact .inr (.inr ⟨hm, hph, .inl rfl⟩)

theorem transmitTick_buffer (e : transmitTick s = .next t) : s.KeepsOrHidesBuffer t := by
  obtain ⟨-, rfl⟩ | ⟨-, b, -, rfl⟩ := transmitTick_next_cases e
  · exact ⟨rfl, .inl rfl⟩
  · by_cases hlast : (transmitSend b s).txI = (transmitSend b s).txBuf.length
    · rw [transmitAdvance_last hlast]
      exact ⟨rfl, .inl rfl⟩
    · rw [transmitAdvance_more hlast]
      exact ⟨rfl, .inl rfl⟩

theorem blinkTick_buffer (s : State) : s.KeepsOrHidesBuffer (blinkTick s) := by
  obtain e | e | ⟨n, ph, -, e⟩ := blinkTick_cases s <;> rw [e] <;> exact ⟨rfl, .inl rfl⟩

theorem tick_buffer (e : tick s = .next t) : s.KeepsOrHidesBuffer t ∨ (s.fs = .running ∧ s.WritesBuffer t) := by
  obtain ⟨hf, hm, e⟩ | ⟨hf, hm, e⟩ | ⟨-, -, e⟩ | ⟨-, -, rfl⟩ | ⟨-, -, rfl⟩ := tick_next_cases e
  · exact (fetchTick_buffer hm e).imp_right (⟨hf, ·⟩)
  · exact (harvestTick_buffer hm e).imp_right (⟨hf, ·⟩)
  · exact .inl (transmitTick_buffer e)
  · exact .inl ⟨rfl, .inl rfl⟩
  · exact .inl (blinkTick_buffer s)

/-- R158 with R240: of the other events only a reset writes the buffer, which is then not valid. -/
theorem step_buffer (e : step s = .next t) :
    (nextEvent s = .reset ∧ t.entValid = false) ∨ s.KeepsOrHidesBuffer t
    ∨ (nextEvent s = .tick ∧ s.fs = .running ∧ s.WritesBuffer t) := by
  obtain ⟨he, rfl⟩ | ⟨-, rfl⟩ | ⟨ws, -, -, rfl⟩ | ⟨he, e'⟩ := step_next_cases e
  · exact .inl ⟨he, rfl⟩
  · exact .inr (.inl (raiseFault_buffer _ (popInput s)))
  · exact .inr (.inl ⟨rfl, .inl rfl⟩)
  · obtain hkeep | ⟨hf, hw⟩ := tick_buffer e'
    · exact .inr (.inl hkeep)
    · exact .inr (.inr ⟨he, hf, hw⟩)

end Steps

/-- Settles O32: neither a reset, nor fault entry, nor the fetch of a HARVEST leaves a valid buffer. -/
theorem bufferBecomesValidOnlyWithTheEighthWord : Obligations.BufferBecomesValidOnlyWithTheEighthWord := by
  intro s t e hs ht
  obtain ⟨-, hv⟩ | ⟨-, hv | ⟨-, hv⟩⟩ | ⟨he, hf, ⟨-, -, hv⟩ | ⟨hm, hph, hv | ⟨hk, hk'⟩⟩⟩ := step_buffer e
  · simp [hv] at ht
  · simp [hv, hs] at ht
  · simp [hv] at ht
  · simp [hv] at ht
  · simp [hv, hs] at ht
  · exact ⟨he, hf, hm, hph, hk, hk'⟩

/-- Settles O33: any other step keeps the buffer, hidden or not. -/
theorem onlyHarvestAndResetWriteTheBuffer : Obligations.OnlyHarvestAndResetWriteTheBuffer := by
  intro s t e hne
  obtain ⟨he, -⟩ | ⟨hbuf, -⟩ | ⟨he, hf, ⟨hm, hd, -⟩ | ⟨hm, hph, -⟩⟩ := step_buffer e
  · exact .inl he
  · exact absurd hbuf hne
  · exact .inr ⟨he, hf, .inl ⟨hm, hd⟩⟩
  · exact .inr ⟨he, hf, .inr ⟨hm, hph⟩⟩

/-- Settles O34: by the invariants the harvest engine does not run over a valid buffer. -/
theorem validBufferIsKept : Obligations.ValidBufferIsKept := by
  intro s t h hs e hreset hf hfetch
  obtain ⟨he, -⟩ | ⟨hbuf, hv | ⟨hfault, -⟩⟩ | ⟨he, -, ⟨hm, hd, -⟩ | ⟨hm, -, -⟩⟩ := step_buffer e
  · exact absurd he hreset
  · exact ⟨hbuf, hv.trans hs⟩
  · cases hf.symm.trans hfault
  · exact absurd ⟨he, hm, hd⟩ hfetch
  · obtain ⟨hinvalid, -⟩ := h.harvest_partial hm
    cases hs.symm.trans hinvalid

end Sys2Proof.Machine
end

section
/-! Runs of the harvest engine with nothing presented: the polls for one word, the round of one word, and the rounds of a
whole buffer (R155 to R157). -/

namespace Sys2Proof.Machine

/-- R152: the buffer with the words `ws` in its slices from `k` on. -/
def storeSlices (k : Nat) : List Word → Vector (Option Byte) 32 → Vector (Option Byte) 32
  | [], buf => buf
  | w :: ws, buf => storeSlices (k + 1) ws (storeSlice k w buf)

/-- R151: `s` after the status reads of the round `r`, about to read its word. -/
def State.afterStatuses (r : HarvestRound) (rest : List Word) (s : State) : State :=
  { s.afterReads .trngStatus (r.busy ++ [r.status]) rest with hvPh := .read }

/-- R156: `s` after the rounds of some words, before the engine decides how to go on. -/
def State.afterWords (rounds : List HarvestRound) (rest : List Word) (s : State) : State :=
  { s with
    hist := s.hist ++ rounds.flatMap (HarvestRound.events s.params)
    entBuf := storeSlices s.hvK (rounds.map HarvestRound.word) s.entBuf
    hvK := s.hvK + rounds.length
    hvPh := .read
    draws := rest
    drawn := s.drawn + (rounds.flatMap HarvestRound.draws).length }

/-- The harvest engine is in the phase `ph`, with nothing presented, under parameters a step is defined for. -/
structure State.InHarvest (ph : HarvestPhase) (s : State) : Prop where
  params_ok : s.params.ok = true
  quiet : s.inputs = []
  running : s.fs = .running
  harvesting : s.mode = .execHarvest
  phase : s.hvPh = ph

section Buffer

theorem storeSlices_getElem_before {k i : Nat} (hi : i < 32) (hk : i / 4 < k) (ws : List Word)
    (buf : Vector (Option Byte) 32) : (storeSlices k ws buf)[i] = buf[i] := by
  induction ws generalizing k buf with
  | nil => rfl
  | cons w ws ih => rw [storeSlices, ih (by omega), storeSlice_getElem, if_neg (by omega)]

/-- R156: later words leave a slice as its own word made it. -/
theorem storeSlices_getElem {k m i : Nat} (hi : i < 32) {ws : List Word} (hm : m < ws.length) (hk : i / 4 = k + m)
    (buf : Vector (Option Byte) 32) : (storeSlices k ws buf)[i] = some (beByte ws[m] (i % 4)) := by
  induction ws generalizing k m buf with
  | nil => cases hm
  | cons w ws ih =>
    cases m with
    | zero =>
      rw [storeSlices, storeSlices_getElem_before hi (by omega), storeSlice_getElem]
      exact if_pos hk
    | succ m => exact ih (Nat.lt_of_succ_lt_succ hm) (by omega) _

end Buffer

section States

variable {s : State} {ph : HarvestPhase}

/-- A round is its status reads and then the read of its word into the next slice. -/
theorem harvestStore_afterStatuses (r : HarvestRound) (rest : List Word) (s : State) :
    harvestStore (s.afterStatuses r (r.word :: rest)) = s.afterWords [r] rest := by
  simp [harvestStore, memRead, draw, State.afterStatuses, State.afterReads, State.afterWords, storeSlices,
    HarvestRound.events, HarvestRound.draws, Handle.addr, Handle.selector, Handle.offset, Nat.add_assoc]

/-- The round of a word and then the rounds of the words that follow are the rounds of them all. -/
theorem afterWords_cons (r : HarvestRound) (rs : List HarvestRound) (mid rest : List Word) (s : State) :
    State.afterWords rs rest { s.afterWords [r] mid with hvPh := .poll } = s.afterWords (r :: rs) rest := by
  simp [State.afterWords, storeSlices, Nat.add_assoc, Nat.add_comm 1]

theorem State.InHarvest.atTick (h : s.InHarvest ph) : s.atTick := ⟨h.params_ok, nextEvent_of_quiet h.quiet⟩

theorem State.InHarvest.afterReads (h : s.InHarvest ph) (r : Handle) (vs rest : List Word) :
    (s.afterReads r vs rest).InHarvest ph := { h with }

theorem State.InHarvest.afterStatuses (h : s.InHarvest ph) (r : HarvestRound) (rest : List Word) :
    (s.afterStatuses r rest).InHarvest .read := { h with phase := rfl }

end States

section Runs

variable {s : State}

/-- R151, with the status the poll draws. -/
theorem step_harvestPoll_of_scripted (h : s.InHarvest .poll) {v : Word} {rest : List Word} (hd : s.draws = v :: rest) :
    step s = .next { s.afterReads .trngStatus [v] rest with hvPh := if v[0] then .read else .poll } := by
  rw [step_harvestPoll h.atTick h.running h.harvesting h.phase, popInput_of_quiet h.quiet, harvestPoll,
    trngReady_eq, memRead_of_scripted _ hd, draw_of_scripted hd]

/-- R151, with a status that is not ready. -/
theorem step_harvestPoll_busy (h : s.InHarvest .poll) {v : Word} (hv : v[0] = false) {rest : List Word}
    (hd : s.draws = v :: rest) : step s = .next (s.afterReads .trngStatus [v] rest) := by
  rw [step_harvestPoll_of_scripted h hd, hv, ← h.phase]
  rfl

/-- R152, with nothing presented. -/
theorem step_harvestRead_of_quiet (h : s.InHarvest .read) (hk : s.hvK < 8) :
    step s = .next (harvestAdvance (harvestStore s)) := by
  rw [step_harvestRead h.atTick h.running h.harvesting h.phase hk, popInput_of_quiet h.quiet]

/-- R157: the engine polls once a tick for as long as bit 0 of the status reads clear. -/
theorem runSteps_busyStatuses {busy : List Word} (hbusy : ∀ b ∈ busy, b[0] = false) (h : s.InHarvest .poll)
    {rest : List Word} (hd : s.draws = busy ++ rest) :
    runSteps busy.length s = .next (s.afterReads .trngStatus busy rest) := by
  induction busy generalizing s with
  | nil =>
    obtain rfl : s.draws = rest := hd
    rw [afterReads_nil, List.length_nil, runSteps_zero]
  | cons b busy ih =>
    obtain ⟨hb, hrest⟩ := List.forall_mem_cons.1 hbusy
    rw [List.cons_append] at hd
    rw [List.length_cons, runSteps_next (step_harvestPoll_busy h hb hd), ih hrest (h.afterReads _ _ _) rfl,
      afterReads_afterReads, List.singleton_append]

/-- R156: the first status with bit 0 set ends the polls for a word. -/
theorem runSteps_statuses {r : HarvestRound} (hr : r.answers) (h : s.InHarvest .poll) {rest : List Word}
    (hd : s.draws = r.draws ++ rest) :
    runSteps (r.busy.length + 1) s = .next (s.afterStatuses r (r.word :: rest)) := by
  obtain ⟨hbusy, hready⟩ := hr
  have hd : s.draws = r.busy ++ r.status :: r.word :: rest := by simp [hd, HarvestRound.draws]
  have hpoll : step (s.afterReads .trngStatus r.busy (r.status :: r.word :: rest))
      = .next (s.afterStatuses r (r.word :: rest)) := by
    rw [step_harvestPoll_of_scripted (h.afterReads _ _ _) rfl, hready, afterReads_afterReads]
    rfl
  rw [runSteps_add (runSteps_busyStatuses hbusy h hd), runSteps_next hpoll, runSteps_zero]

/-- R156, for one word, with the ticks of 95_test_vectors.md section 2.3. -/
theorem runSteps_word {r : HarvestRound} (hr : r.answers) (h : s.InHarvest .poll) (hk : s.hvK < 8) {rest : List Word}
    (hd : s.draws = r.draws ++ rest) :
    runSteps (roundTicks r.busy) s = .next (harvestAdvance (s.afterWords [r] rest)) := by
  rw [roundTicks, runSteps_add (runSteps_statuses hr h hd) 1,
    runSteps_next (step_harvestRead_of_quiet (h.afterStatuses r _) hk), runSteps_zero, harvestStore_afterStatuses]

/-- R155, R156: from a poll, the engine makes the rounds of the words not yet stored, in order. -/
theorem runSteps_words {rounds : List HarvestRound} (hne : rounds ≠ []) (hall : ∀ r ∈ rounds, r.answers)
    (h : s.InHarvest .poll) (hk : s.hvK + rounds.length ≤ 8) {rest : List Word}
    (hd : s.draws = rounds.flatMap HarvestRound.draws ++ rest) :
    runSteps (rounds.map (fun r => roundTicks r.busy)).sum s = .next (harvestAdvance (s.afterWords rounds rest)) := by
  induction rounds, hne using List.recNeNil generalizing s with
  | singleton r =>
    rw [List.flatMap_singleton] at hd
    simpa using runSteps_word (hall r (by simp)) h hk hd
  | cons r rs hne ih =>
    obtain ⟨hr, hrs⟩ := List.forall_mem_cons.1 hall
    have hlen : 0 < rs.length := List.length_pos_of_ne_nil hne
    rw [List.length_cons] at hk
    rw [List.flatMap_cons, List.append_assoc] at hd
    have hmore : s.hvK + 1 ≠ 8 := by omega
    have hlater := ih (s := { s.afterWords [r] (rs.flatMap HarvestRound.draws ++ rest) with hvPh := .poll }) hrs
      { h with phase := rfl } (show s.hvK + 1 + rs.length ≤ 8 by omega) rfl
    rw [List.map_cons, List.sum_cons, runSteps_add (runSteps_word hr h (by omega) hd),
      harvestAdvance_more (s := s.afterWords [r] _) hmore, hlater, afterWords_cons]

end Runs

/-- Settles O31: the polls for a word whose ready status does not come. -/
theorem harvestPollHasNoTimeout : Obligations.HarvestPollHasNoTimeout := by
  intro busy rest s hp hq hf hm hph hbusy hd
  exact runSteps_busyStatuses hbusy ⟨hp, hq, hf, hm, hph⟩ hd

/-- Settles O30: the fetch step starts the engine at the first slice, and the rounds of eight words fill the buffer and end
in the completion of the command. -/
theorem harvestDeliversEightPolledWords : Obligations.HarvestDeliversEightPolledWords := by
  intro s rounds rest hp hq hf hm hdec hlen hr hd
  have hfetch : step s = .next s.startedHarvest := by
    rw [step_fetch hp (nextEvent_of_quiet hq) hf hm, popInput_of_quiet hq, fetchTick_command hdec, exec_harvest]
  have height : (s.startedHarvest.afterWords rounds rest).hvK = 8 := by
    simp [State.afterWords, State.startedHarvest, hlen]
  have hrounds := runSteps_words (s := s.startedHarvest) (List.ne_nil_of_length_pos (by omega)) hr
    ⟨hp, hq, hf, rfl, rfl⟩ height.le hd
  rw [harvestAdvance_last height] at hrounds
  refine ⟨_, by rw [Nat.add_comm, runSteps_next hfetch, hrounds], fun i j hi hj hc => ?_, ?_⟩
  · have hcell := storeSlices_getElem (k := 0) (m := i) hc (ws := rounds.map HarvestRound.word) (by simpa using hi)
      (by omega) (Vector.replicate 32 none)
    rw [List.getElem_map, show (4 * i + j) % 4 = j by omega] at hcell
    exact hcell
  · simp [State.afterWords, State.startedHarvest, hlen, hm]

end Sys2Proof.Machine
end

section
/-! When the decoder answers WAIT: the words it needs are not all in the queue (R88, R182). -/

namespace Sys2Proof

section Waits

variable {w : Word} {rest : List Word}

/-- R88, format A: the head word decides. -/
theorem decodeFormatA_ne_wait (i : Instr) (w : Word) : decodeFormatA i w ≠ .wait := by
  unfold decodeFormatA
  split <;> simp

/-- R88, `op = 0x1`: the head word decides. -/
theorem decodePeek_ne_wait (w : Word) : decodePeek w ≠ .wait := by
  unfold decodePeek
  split <;> simp

/-- R88, `op = 0x2`: only a legal head word waits for its data word. -/
theorem decodePoke_eq_wait (e : decodePoke w rest = .wait) :
    rest = [] ∧ ∃ h : Handle, h.canWrite = true ∧ w = headWord (opField w) h.number 0#16 := by
  unfold decodePoke at e
  split at e
  · cases e
  next h hh =>
  split at e
  · exact ⟨rfl, h, decodeFormatH_eq_ok hh, eq_headWord_of_decodeFormatH hh⟩
  · cases e

/-- R88, `op = 0x4`: only a legal head word waits for its payload words. -/
theorem decodeTransmit_eq_wait (e : decodeTransmit w rest = .wait) :
    w = headWord (opField w) 0#4 (lenField w) ∧ rest.length < payloadWords (lenField w).toNat := by
  simp only [decodeTransmit] at e
  split at e
  · cases e
  next hz =>
  split at e
  next hlt => exact ⟨(formatT_iff w).1 (not_not.1 hz), hlt⟩
  · split at e <;> cases e

/-- R88: of the rows of the decoder only POKE and TRANSMIT wait. -/
theorem decode_cons_eq_wait (e : decode (w :: rest) = .wait) :
    (opField w = 0x2#4 ∧ decodePoke w rest = .wait) ∨ (opField w = 0x4#4 ∧ decodeTransmit w rest = .wait) := by
  simp only [decode] at e
  split at e
  · exact absurd e (decodeFormatA_ne_wait _ w)
  · exact absurd e (decodePeek_ne_wait w)
  next hop => exact .inl ⟨BitVec.eq_of_toNat_eq hop, e⟩
  · exact absurd e (decodeFormatA_ne_wait _ w)
  next hop => exact .inr ⟨BitVec.eq_of_toNat_eq hop, e⟩
  · exact absurd e (decodeFormatA_ne_wait _ w)
  · cases e

/-- R88: a legal POKE head word alone in the queue. -/
theorem decode_poke_wait {h : Handle} (hw : h.canWrite = true) : decode [headWord 0x2#4 h.number 0#16] = .wait := by
  simp [decode_poke, decodePoke, hw]

end Waits

/-- The head word of a POKE, with its reserved bits 23:0 written as one field (R83). -/
theorem append_number_eq_headWord (h : Handle) : 0x2#4 ++ h.number ++ 0#24 = headWord 0x2#4 h.number 0#16 := by
  cases h <;> rfl

/-- Settles O9: WAIT is the answer of the POKE or the TRANSMIT row, and each row's head word is then legal. -/
theorem decodeWaitsExactlyForMissingWords : Obligations.DecodeWaitsExactlyForMissingWords := by
  intro ws
  constructor
  · intro e
    match ws with
    | [] => exact .inl rfl
    | w :: rest =>
      obtain ⟨hop, e'⟩ | ⟨hop, e'⟩ := decode_cons_eq_wait e
      · obtain ⟨rfl, h, hw, hhead⟩ := decodePoke_eq_wait e'
        exact .inr (.inl ⟨h, hw, by rw [append_number_eq_headWord, ← hop, ← hhead]⟩)
      · obtain ⟨hhead, hlt⟩ := decodeTransmit_eq_wait e'
        rw [hop] at hhead
        exact .inr (.inr ⟨lenField w, rest, congrArg (· :: rest) hhead, hlt⟩)
  · rintro (rfl | ⟨h, hw, rfl⟩ | ⟨n, rest, rfl, hlt⟩)
    · rfl
    · rw [append_number_eq_headWord]
      exact decode_poke_wait hw
    · exact decode_transmit_wait hlt

end Sys2Proof
end

section
/-! The system commands IDLE and FAULT (R180, R181), and the idle and the wait state, where the spec has no tick and the
model offers one that changes nothing (R182, R183; log entry 8). -/

namespace Sys2Proof.Machine

/-- Settles O20: the meaning of IDLE is this update. -/
theorem idleStopsAtItsIndex : Obligations.IdleStopsAtItsIndex := fun _ => rfl

/-- Settles O21: the meaning of FAULT is fault entry with cause 1, here in a running state. -/
theorem faultCommandEntersTheHandler : Obligations.FaultCommandEntersTheHandler :=
  fun _ hf => congrArg Host.Outcome.next (raiseFault_eq_enteredFault .software hf)

section Waits

variable {s : State}

theorem tickEnabled_idle (h : s.endedNormally) : tickEnabled s = false := by
  obtain ⟨hf, hm⟩ := h
  rw [tickEnabled, hf, hm]

theorem tickEnabled_waiting (h : s.waiting) : tickEnabled s = false := by
  obtain ⟨hf, hm, hd⟩ := h
  simp [tickEnabled, hf, hm, hd]

/-- R182: within the queue a fetch step without its words changes nothing. -/
theorem fetchTick_wait (hd : decodeAt s.prog s.pc = .wait) (hpc : s.pc ≤ s.prog.length) : fetchTick s = .next s := by
  rw [fetchTick, hd]
  exact if_pos hpc

/-- R183: a tick offered in the idle state changes nothing. -/
theorem tick_idle (h : s.endedNormally) : tick s = .next s := by
  obtain ⟨hf, hm⟩ := h
  rw [tick, hf, hm]

end Waits

/-- Settles O36: the step ends the presentation, and its tick is the one of the idle state. -/
theorem idleHasNoTick : Obligations.IdleHasNoTick :=
  fun _ ⟨hp, he⟩ h => ⟨tickEnabled_idle h, step_idle hp he h.1 h.2⟩

/-- Settles O37: ending the presentation leaves the words at `PC` as they are, and they are still not all there. -/
theorem waitingChangesNothing : Obligations.WaitingChangesNothing := by
  intro s ⟨hp, he⟩ hw hpc
  refine ⟨tickEnabled_waiting hw, ?_⟩
  obtain ⟨hf, hm, hd⟩ := hw
  rw [step_fetch hp he hf hm]
  exact fetchTick_wait (s := popInput s) hd hpc

/-- Settles O49: of the four events a push and a tick stay in the idle state. -/
theorem idleIsLeftOnlyByFaultOrReset : Obligations.IdleIsLeftOnlyByFaultOrReset := by
  intro s t h e
  obtain ⟨he, -⟩ | ⟨he, rfl⟩ | ⟨ws, -, -, rfl⟩ | ⟨-, e'⟩ := step_next_cases e
  · exact .inr (.inr he)
  · exact .inr (.inl ⟨he, raiseFault_fs _ _⟩)
  · exact .inl ⟨h, rfl, rfl⟩
  · rw [tick_idle (s := popInput s) h] at e'
    cases e'
    exact .inl ⟨h, rfl, rfl⟩

end Sys2Proof.Machine
end

section
/-! Fault requests and the priority of presented events (R213, R214, R223), and what steps of the engines and of a faulted
block leave alone (R203, R206, R212). -/

namespace Sys2Proof.Machine

/-- R214: the event taken of those presented. -/
theorem nextEvent_of_present {s : State} {reset faultReq : Bool} {rest : List Input}
    (h : s.inputs = .present reset faultReq :: rest) :
    nextEvent s = if reset then .reset else if faultReq then .faultReq else .tick := by
  rw [nextEvent, h]

/-- Settles O43: each clause is one presentation. -/
theorem presentedEventsAreTakenByPriority : Obligations.PresentedEventsAreTakenByPriority :=
  fun _ _ _ => ⟨fun _ h => nextEvent_of_present h, fun h => nextEvent_of_present h, fun h => nextEvent_of_present h,
    nextEvent_of_quiet⟩

/-- A step on which `fault_req` is the event taken. -/
theorem step_faultReq {s : State} (hp : s.params.ok = true) (he : nextEvent s = .faultReq) :
    step s = .next (raiseFault .external (popInput s)) := by
  rw [step_eq hp, he]
  rfl

/-- Settles O41: the fault entry of R204 looks at `FS` alone. -/
theorem faultRequestEntersTheHandler : Obligations.FaultRequestEntersTheHandler := by
  intro s hp he hf
  rw [step_faultReq hp he, raiseFault_eq_enteredFault (s := popInput s) .external hf]
  rfl

/-- Settles O42: fault entry changes nothing while faulted, so the step only ends its presentation. -/
theorem faultWhileFaultedHasNoEffect : Obligations.FaultWhileFaultedHasNoEffect := by
  intro s hp he hf
  rw [step_faultReq hp he, raiseFault_faulted (s := popInput s) .external hf]
  rfl

section Steps

variable {s t : State}

/-- R151, R152: the harvest engine leaves `FS` and its cause alone. -/
theorem harvestTick_fs_fcause (e : harvestTick s = .next t) : t.fs = s.fs ∧ t.fcause = s.fcause := by
  obtain ⟨-, rfl⟩ | ⟨-, -, rfl⟩ := harvestTick_next_cases e
  · exact ⟨rfl, rfl⟩
  · by_cases hlast : (harvestStore s).hvK = 8
    · rw [harvestAdvance_last hlast]
      exact ⟨rfl, rfl⟩
    · rw [harvestAdvance_more hlast]
      exact ⟨rfl, rfl⟩

/-- R131, R132: the transmit engine leaves `FS` and its cause alone. -/
theorem transmitTick_fs_fcause (e : transmitTick s = .next t) : t.fs = s.fs ∧ t.fcause = s.fcause := by
  obtain ⟨-, rfl⟩ | ⟨-, b, -, rfl⟩ := transmitTick_next_cases e
  · exact ⟨rfl, rfl⟩
  · by_cases hlast : (transmitSend b s).txI = (transmitSend b s).txBuf.length
    · rw [transmitAdvance_last hlast]
      exact ⟨rfl, rfl⟩
    · rw [transmitAdvance_more hlast]
      exact ⟨rfl, rfl⟩

/-- R206: the only tick of a faulted block that answers a next state is the blink engine's. -/
theorem tick_faulted (hf : s.fs = .faulted) (e : tick s = .next t) : t = blinkTick s := by
  obtain ⟨hr, -⟩ | ⟨hr, -⟩ | ⟨hr, -⟩ | ⟨hr, -⟩ | ⟨-, -, ht⟩ := tick_next_cases e
  · cases hf.symm.trans hr
  · cases hf.symm.trans hr
  · cases hf.symm.trans hr
  · cases hf.symm.trans hr
  · exact ht

/-- Everything the blink engine leaves alone (R207 to R210). -/
theorem blinkTick_frame (s : State) :
    blinkTick s = { s with
      hist := (blinkTick s).hist
      blPh := (blinkTick s).blPh
      blCnt := (blinkTick s).blCnt } := by
  obtain e | e | ⟨n, ph, -, e⟩ := blinkTick_cases s <;> rw [e] <;> rfl

/-- R207 to R210: the blink engine makes no access, or writes one of the two patterns to the LED. -/
theorem blinkTick_hist (s : State) :
    (blinkTick s).hist = s.hist
    ∨ ∃ v : Word, (blinkTick s).hist = s.hist ++ [.wr (Handle.led.addr s.params) v] ∧ (v = ledOn ∨ v = ledOff) := by
  obtain e | e | ⟨n, ph, -, e⟩ := blinkTick_cases s <;> rw [e]
  · exact .inr ⟨ledOn, rfl, .inl rfl⟩
  · exact .inr ⟨ledOff, rfl, .inr rfl⟩
  · exact .inl rfl

end Steps

/-- Settles O48: the tick is the one of the engine that runs. -/
theorem engineStepsRaiseNoFault : Obligations.EngineStepsRaiseNoFault := by
  intro s t hf hm he e
  obtain ⟨hp, -⟩ := step_next e
  obtain hm | hm := hm
  · rw [step_harvest hp he hf hm] at e
    obtain ⟨hfs, hcause⟩ := harvestTick_fs_fcause e
    exact ⟨hfs.trans hf, hcause⟩
  · rw [step_transmit hp he hf hm] at e
    obtain ⟨hfs, hcause⟩ := transmitTick_fs_fcause e
    exact ⟨hfs.trans hf, hcause⟩

/-- Settles O47: a fault request and a push make no access, and the tick is the blink engine's. -/
theorem faultedBlockTouchesOnlyTheLed : Obligations.FaultedBlockTouchesOnlyTheLed := by
  intro s t e hf hne
  obtain ⟨hr, -⟩ | ⟨-, rfl⟩ | ⟨ws, -, -, rfl⟩ | ⟨-, e'⟩ := step_next_cases e
  · exact absurd hr hne
  · rw [raiseFault_faulted (s := popInput s) _ hf]
    exact ⟨hf, rfl, rfl, rfl, rfl, rfl, rfl, .inl rfl⟩
  · exact ⟨hf, rfl, rfl, rfl, rfl, rfl, rfl, .inl rfl⟩
  · obtain rfl := tick_faulted (s := popInput s) hf e'
    have hhist := blinkTick_hist (popInput s)
    rw [blinkTick_frame]
    exact ⟨hf, rfl, rfl, rfl, rfl, rfl, rfl, hhist⟩

end Sys2Proof.Machine
end

section
/-! The blink engine: its steps (R207 to R210), and its runs with nothing presented (R211). The on half and the off half of
a period differ in the pattern written alone, so each fact is stated once for the half `on`. -/

namespace Sys2Proof.Machine

/-- R207, R209: the phase that writes the half's pattern. -/
def BlinkPhase.write : Bool → BlinkPhase
  | true => .writeOn
  | false => .writeOff

/-- R208, R210: the phase of the delay after it. -/
def BlinkPhase.delay : Bool → BlinkPhase
  | true => .delayOn
  | false => .delayOff

/-- R10: the half's pattern. -/
def ledPattern : Bool → Word
  | true => ledOn
  | false => ledOff

/-- R207, R209: the half's LED write. -/
def ledWrite (p : Params) (on : Bool) : BusEvent := .wr (Handle.led.addr p) (ledPattern on)

/-- R211: a period is the write of its on half and the write of its off half. -/
theorem blinkPeriod_eq (p : Params) : blinkPeriod p = [ledWrite p true, ledWrite p false] := rfl

section Steps

variable {s : State} {on : Bool}

theorem blinkTick_write (h : s.blPh = .write on) : blinkTick s = blinkWrite (ledPattern on) (.delay on) s := by
  cases on <;> rw [blinkTick, h] <;> rfl

theorem blinkTick_delay (h : s.blPh = .delay on) : blinkTick s = blinkDelay (.write !on) s := by
  cases on <;> rw [blinkTick, h] <;> rfl

/-- R207, R209. -/
theorem step_ledWrite (ht : s.atTick) (hf : s.fs = .faulted) (hm : s.mode = .blink) (hph : s.blPh = .write on) :
    step s = .next (blinkWrite (ledPattern on) (.delay on) (popInput s)) := by
  rw [step_blink ht.1 ht.2 hf hm, blinkTick_write (s := popInput s) hph]

/-- R208, R210. -/
theorem step_ledDelay (ht : s.atTick) (hf : s.fs = .faulted) (hm : s.mode = .blink) (hph : s.blPh = .delay on) :
    step s = .next { s with
      inputs := s.inputs.tail
      blCnt := if s.blCnt = 0 then 0 else s.blCnt - 1
      blPh := if s.blCnt = 0 then .write !on else .delay on } := by
  rw [step_blink ht.1 ht.2 hf hm, blinkTick_delay (s := popInput s) hph]
  by_cases h : s.blCnt = 0
  · rw [blinkDelay_last (s := popInput s) _ h, if_pos h, if_pos h, ← h]
    rfl
  · rw [blinkDelay_more (s := popInput s) _ h, if_neg h, if_neg h, ← hph]
    rfl

end Steps

/-- Settles O44: the two writes and the two delays, each with its half; fault entry leaves the engine about to write the
on pattern. -/
theorem blinkEngineSteps : Obligations.BlinkEngineSteps := by
  refine ⟨fun s ht hf hm => ⟨?_, ?_, ?_, ?_⟩, fun c s _ ht => ?_⟩
  · exact step_ledWrite (on := true) ht hf hm
  · exact step_ledDelay (on := true) ht hf hm
  · exact step_ledWrite (on := false) ht hf hm
  · exact step_ledDelay (on := false) ht hf hm
  · exact step_ledWrite (on := true) ht rfl rfl rfl

/-- The blink engine is in the phase `ph`, with nothing presented, under parameters a step is defined for. -/
structure State.InBlink (ph : BlinkPhase) (s : State) : Prop where
  params_ok : s.params.ok = true
  quiet : s.inputs = []
  faulted : s.fs = .faulted
  blinking : s.mode = .blink
  phase : s.blPh = ph

/-- R211: `s` after the write of the half `on` and its whole delay, about to write the other pattern. -/
def State.afterHalf (on : Bool) (s : State) : State :=
  { s with hist := s.hist ++ [ledWrite s.params on], blCnt := 0, blPh := .write !on }

section Runs

variable {s : State} {ph : BlinkPhase} {on : Bool} {k : Nat}

theorem State.InBlink.blinkWrite (h : s.InBlink ph) (on : Bool) :
    (blinkWrite (ledPattern on) (.delay on) s).InBlink (.delay on) := { h with phase := rfl }

theorem State.InBlink.afterHalf (h : s.InBlink ph) (on : Bool) : (s.afterHalf on).InBlink (.write !on) :=
  { h with phase := rfl }

/-- With nothing presented the step is the engine's tick. -/
theorem step_blink_of_quiet (h : s.InBlink ph) : step s = .next (blinkTick s) := by
  rw [step_blink h.params_ok (nextEvent_of_quiet h.quiet) h.faulted h.blinking, popInput_of_quiet h.quiet]

theorem step_ledWrite_of_quiet (h : s.InBlink (.write on)) :
    step s = .next (blinkWrite (ledPattern on) (.delay on) s) := by
  rw [step_blink_of_quiet h, blinkTick_write h.phase]

/-- R208, R210, before the last iteration. -/
theorem step_ledDelay_more (h : s.InBlink (.delay on)) (hc : s.blCnt ≠ 0) :
    step s = .next { s with blCnt := s.blCnt - 1 } := by
  rw [step_blink_of_quiet h, blinkTick_delay h.phase, blinkDelay_more _ hc]

/-- R208, R210, the last iteration. -/
theorem step_ledDelay_last (h : s.InBlink (.delay on)) (hc : s.blCnt = 0) :
    step s = .next { s with blPh := .write !on } := by
  rw [step_blink_of_quiet h, blinkTick_delay h.phase, blinkDelay_last _ hc]

/-- R211: the delay counts down one a tick, with no access. -/
theorem runSteps_countdown (h : s.InBlink (.delay on)) (hk : k ≤ s.blCnt) :
    runSteps k s = .next { s with blCnt := s.blCnt - k } := by
  induction k generalizing s with
  | zero => rfl
  | succ k ih =>
    have hlater := ih (s := { s with blCnt := s.blCnt - 1 }) { h with } (Nat.le_sub_one_of_lt hk)
    rw [runSteps_next (step_ledDelay_more h (Nat.ne_zero_of_lt hk)), hlater, Nat.sub_sub, Nat.add_comm 1]

/-- R211: the delay lasts one tick more than its count. -/
theorem runSteps_delay (h : s.InBlink (.delay on)) :
    runSteps (s.blCnt + 1) s = .next { s with blCnt := 0, blPh := .write !on } := by
  have hcount := runSteps_countdown h le_rfl
  have hlast := step_ledDelay_last (s := { s with blCnt := s.blCnt - s.blCnt }) { h with } (Nat.sub_self _)
  rw [runSteps_add hcount, runSteps_next hlast, runSteps_zero, Nat.sub_self]

theorem runSteps_delay_silent (h : s.InBlink (.delay on)) (hk : k ≤ s.blCnt + 1) :
    ∃ t, runSteps k s = .next t ∧ t.hist = s.hist := by
  obtain hk | rfl := Nat.le_succ_iff.1 hk
  · exact ⟨_, runSteps_countdown h hk, rfl⟩
  · exact ⟨_, runSteps_delay h, rfl⟩

/-- R211: the write of a half and its delay of `BLINK_DELAY + 1` ticks. -/
theorem runSteps_half (h : s.InBlink (.write on)) :
    runSteps (s.params.blinkDelay + 1 + 1) s = .next (s.afterHalf on) := by
  rw [runSteps_next (step_ledWrite_of_quiet h)]
  exact runSteps_delay (h.blinkWrite on)

theorem runSteps_write_silent (h : s.InBlink (.write on)) (hk : k ≤ s.params.blinkDelay + 1) :
    ∃ t, runSteps (1 + k) s = .next t ∧ t.hist = s.hist ++ [ledWrite s.params on] := by
  rw [Nat.add_comm, runSteps_next (step_ledWrite_of_quiet h)]
  exact runSteps_delay_silent (h.blinkWrite on) hk

/-- R211: the write of a half is followed by the write of the other. -/
theorem runSteps_write_write (h : s.InBlink (.write on)) :
    ∃ t, runSteps (1 + (s.params.blinkDelay + 1) + 1) s = .next t
      ∧ t.hist = s.hist ++ [ledWrite s.params on, ledWrite s.params !on] := by
  rw [Nat.add_comm 1, runSteps_add (runSteps_half h) 1, runSteps_next (step_ledWrite_of_quiet (h.afterHalf on)),
    runSteps_zero]
  exact ⟨_, rfl, List.append_assoc ..⟩

/-- R211: one period is the on half and the off half. -/
theorem runSteps_period (h : s.InBlink .writeOn) :
    runSteps (2 * (s.params.blinkDelay + 2)) s = .next { s with hist := s.hist ++ blinkPeriod s.params, blCnt := 0 } := by
  have hoff := runSteps_half (h.afterHalf true)
  rw [Nat.two_mul, runSteps_add (runSteps_half (on := true) h)]
  refine hoff.trans ?_
  simp [State.afterHalf, blinkPeriod_eq, BlinkPhase.write, h.phase]

/-- R211: `n` periods, ending in the phase they began in. -/
theorem runSteps_periods (h : s.InBlink .writeOn) (n : Nat) :
    ∃ c, runSteps (n * (2 * (s.params.blinkDelay + 2))) s = .next { s with
      hist := s.hist ++ (List.replicate n (blinkPeriod s.params)).flatten
      blCnt := c } := by
  induction n generalizing s with
  | zero => exact ⟨s.blCnt, by simp⟩
  | succ n ih =>
    obtain ⟨c, hlater⟩ := ih (s := { s with hist := s.hist ++ blinkPeriod s.params, blCnt := 0 }) { h with }
    refine ⟨c, ?_⟩
    rw [Nat.succ_mul, Nat.add_comm, runSteps_add (runSteps_period h), hlater, List.replicate_succ, List.flatten_cons,
      List.append_assoc]

end Runs

/-- Settles O46: each clause is one half of the period. -/
theorem blinkDelayIsSilentAndFixed : Obligations.BlinkDelayIsSilentAndFixed := by
  intro k s hp hq hf hm hk
  constructor
  · intro hph
    have h : s.InBlink (.write true) := ⟨hp, hq, hf, hm, hph⟩
    exact ⟨runSteps_write_silent h hk, runSteps_write_write h⟩
  · intro hph
    have h : s.InBlink (.write false) := ⟨hp, hq, hf, hm, hph⟩
    exact ⟨runSteps_write_silent h hk, runSteps_write_write h⟩

/-- Settles O45: the count is all that the periods leave different besides the history. -/
theorem blinkAlternatesForever : Obligations.BlinkAlternatesForever := by
  intro n s hp hq hf hm hph
  obtain ⟨c, hrun⟩ := runSteps_periods ⟨hp, hq, hf, hm, hph⟩ n
  exact ⟨_, hrun, rfl⟩

end Sys2Proof.Machine
end

section
/-! An engine reads an entropy word or writes a byte only directly after the status read that found its peripheral ready
(R246, R247; R151, R131). An operation either stops the engines or leaves the phase away from the access, or it is that
status read. -/

namespace Sys2Proof.Machine

/-- Where no engine runs there is nothing to show. -/
theorem polledReady_of_noEngine {s : State} (hh : s.mode ≠ .execHarvest) (ht : s.mode ≠ .execTransmit) :
    s.PolledReady :=
  ⟨fun hm => absurd hm hh, fun hm => absurd hm ht⟩

/-- In a harvest the clause on the transmit engine is void. -/
theorem polledReady_of_harvest {s : State} (hm : s.mode = .execHarvest)
    (h : s.hvPh = .read → ∃ v : Word, v[0] = true
      ∧ s.hist.getLast? = some (.rd (s.params.mmioBase ||| s.params.trngSel ||| 0x24#32) v)) : s.PolledReady :=
  ⟨fun _ => h, fun hm' => (nomatch hm.symm.trans hm')⟩

/-- In a transmission the clause on the harvest engine is void. -/
theorem polledReady_of_transmit {s : State} (hm : s.mode = .execTransmit)
    (h : s.txPh = .write → ∃ v : Word, v ≠ 0#32
      ∧ s.hist.getLast? = some (.rd (s.params.mmioBase ||| s.params.uartSel ||| 0x100#32) v)) : s.PolledReady :=
  ⟨fun hm' => (nomatch hm.symm.trans hm'), fun _ => h⟩

/-- R93: a command that completes goes back to `FETCH`. -/
theorem polledReady_complete (len : Nat) (s : State) : (complete len s).PolledReady :=
  polledReady_of_noEngine (by simp) (by simp)

section Steps

variable {s t : State}

theorem polledReady_popInput (h : s.PolledReady) : (popInput s).PolledReady := { h with }

/-- R204: fault entry stops the engines, and a fault while faulted changes nothing (R213). -/
theorem polledReady_raiseFault (h : s.PolledReady) (c : FaultCause) : (raiseFault c s).PolledReady := by
  obtain ⟨-, e⟩ | ⟨-, e⟩ := raiseFault_cases c s <;> rw [e]
  · exact h
  · exact polledReady_of_noEngine (by simp) (by simp)

/-- R130, R150: a command that starts an engine starts it in `POLL`; no other leaves one running. -/
theorem exec_keeps_polledReady (h : s.PolledReady) {i : Instr} (e : exec i s = .next t) : t.PolledReady := by
  obtain ⟨-, rfl⟩ | ⟨r, -, -, rfl⟩ | ⟨r, v, -, -, rfl⟩ | ⟨-, rfl⟩ | ⟨-, rfl⟩ | ⟨bytes, -, -, rfl⟩ | ⟨-, c, rfl⟩ :=
    exec_next_cases e
  · exact polledReady_of_noEngine (by simp) (by simp)
  · exact polledReady_complete ..
  · exact polledReady_complete ..
  · exact polledReady_of_harvest rfl nofun
  · exact polledReady_complete ..
  · exact polledReady_of_transmit rfl nofun
  · exact polledReady_raiseFault h c

theorem fetchTick_keeps_polledReady (h : s.PolledReady) (e : fetchTick s = .next t) : t.PolledReady := by
  obtain ⟨i, len, -, he⟩ | ⟨c, -, rfl⟩ | ⟨-, rfl⟩ := fetchTick_next_cases e
  · exact exec_keeps_polledReady h he
  · exact polledReady_raiseFault h c
  · exact h

/-- R151: the poll goes on to `READ` only if bit 0 of the status it has just read is set. -/
theorem polledReady_harvestPoll (hm : s.mode = .execHarvest) : (harvestPoll s).PolledReady := by
  refine polledReady_of_harvest hm fun hph => ⟨draw s, ?_, List.getLast?_concat⟩
  simpa [harvestPoll, trngReady_eq] using hph

/-- R152: after an entropy word the engine polls again or completes. -/
theorem polledReady_harvestRead (hm : s.mode = .execHarvest) : (harvestAdvance (harvestStore s)).PolledReady := by
  by_cases hlast : (harvestStore s).hvK = 8
  · rw [harvestAdvance_last hlast]
    exact polledReady_of_noEngine (by simp) (by simp)
  · rw [harvestAdvance_more hlast]
    exact polledReady_of_harvest hm nofun

theorem harvestTick_makes_polledReady (hm : s.mode = .execHarvest) (e : harvestTick s = .next t) : t.PolledReady := by
  obtain ⟨-, rfl⟩ | ⟨-, -, rfl⟩ := harvestTick_next_cases e
  · exact polledReady_harvestPoll hm
  · exact polledReady_harvestRead hm

/-- R131: the poll goes on to `WRITE` only if the status it has just read is not zero. -/
theorem polledReady_transmitPoll (hm : s.mode = .execTransmit) : (transmitPoll s).PolledReady := by
  refine polledReady_of_transmit hm fun hph => ⟨draw s, ?_, List.getLast?_concat⟩
  simpa [transmitPoll, transmitPhase_eq] using hph

/-- R132: after a byte the engine polls again or completes. -/
theorem polledReady_transmitWrite (hm : s.mode = .execTransmit) (b : Byte) :
    (transmitAdvance (transmitSend b s)).PolledReady := by
  by_cases hlast : (transmitSend b s).txI = (transmitSend b s).txBuf.length
  · rw [transmitAdvance_last hlast]
    exact polledReady_of_noEngine (by simp) (by simp)
  · rw [transmitAdvance_more hlast]
    exact polledReady_of_transmit hm nofun

theorem transmitTick_makes_polledReady (hm : s.mode = .execTransmit) (e : transmitTick s = .next t) :
    t.PolledReady := by
  obtain ⟨-, rfl⟩ | ⟨-, b, -, rfl⟩ := transmitTick_next_cases e
  · exact polledReady_transmitPoll hm
  · exact polledReady_transmitWrite hm b

/-- R206: the blink engine stays in its own mode. -/
theorem polledReady_blinkTick (hm : s.mode = .blink) : (blinkTick s).PolledReady := by
  rw [blinkTick_frame]
  exact polledReady_of_noEngine (by simp [hm]) (by simp [hm])

theorem tick_keeps_polledReady (h : s.PolledReady) (e : tick s = .next t) : t.PolledReady := by
  obtain ⟨-, -, e⟩ | ⟨-, hm, e⟩ | ⟨-, hm, e⟩ | ⟨-, -, rfl⟩ | ⟨-, hm, rfl⟩ := tick_next_cases e
  · exact fetchTick_keeps_polledReady h e
  · exact harvestTick_makes_polledReady hm e
  · exact transmitTick_makes_polledReady hm e
  · exact h
  · exact polledReady_blinkTick hm

end Steps

/-- Settles O55: each of the four events of R39 keeps it, and no engine runs after power-on or a reset. -/
theorem stepKeepsPolledReady : Obligations.StepKeepsPolledReady := by
  refine ⟨polledReady_of_noEngine nofun nofun, fun s t h e => ?_⟩
  obtain ⟨-, rfl⟩ | ⟨-, rfl⟩ | ⟨ws, -, -, rfl⟩ | ⟨-, e'⟩ := step_next_cases e
  · exact polledReady_of_noEngine nofun nofun
  · exact polledReady_raiseFault (polledReady_popInput h) _
  · exact { h with }
  · exact tick_keeps_polledReady (polledReady_popInput h) e'

end Sys2Proof.Machine
end

section
/-! The requester's read of `ent_out` (R40, R250), and a reset presented in any state (R240). -/

namespace Sys2Proof.Machine

section EntOut

variable {s : State}

theorem readEntOut_invalid (h : s.entValid = false) : readEntOut s = .error .entOutNotValid := by
  simp [readEntOut, h]

/-- R40: a valid buffer is answered whole when every cell holds a byte. -/
theorem readEntOut_valid {bytes : List Byte} (h : s.entValid = true) (hb : s.entBuf.toList = bytes.map some) :
    readEntOut s = .ok bytes := by
  have hall : (bytes.map some).mapM id = some bytes := by
    rw [List.mapM_map]
    exact List.mapM_pure.trans (congrArg some (List.map_id bytes))
  rw [readEntOut, if_pos h, hb, hall]

/-- R43.3: the cells of a buffer with none empty are 32 bytes. -/
theorem bytes_of_full {buf : Vector (Option Byte) 32} (h : ∀ (i : Nat) (hi : i < 32), buf[i].isSome = true) :
    ∃ bytes : List Byte, buf.toList = bytes.map some ∧ bytes.length = 32 := by
  have hall : buf.toList ∈ Set.range (List.map some) := by
    rw [Set.range_list_map]
    intro c hc
    obtain ⟨i, hi, rfl⟩ := Vector.getElem_of_mem (Vector.mem_toList_iff.1 hc)
    exact (Option.isSome_iff_exists.1 (h i hi)).imp fun _ hb => hb.symm
  obtain ⟨bytes, hb⟩ := hall
  exact ⟨bytes, hb.symm, by simpa using congrArg List.length hb⟩

end EntOut

/-- Settles O35: the invariants hide the buffer after a fault, and fill every cell of a valid one. -/
theorem entropyIsReadOnlyWhenValid : Obligations.EntropyIsReadOnlyWhenValid := by
  refine fun s => ⟨readEntOut_invalid, fun hi hf => readEntOut_invalid (hi.faulted_hidden hf), fun hi hv => ?_⟩
  obtain ⟨bytes, hb, hlen⟩ := bytes_of_full (hi.valid_full hv)
  exact ⟨bytes, readEntOut_valid hv hb, hb, hlen⟩

/-- Settles O51: a reset goes before a fault request, and the step ends the presentation. -/
theorem resetRestartsFromAnyState : Obligations.ResetRestartsFromAnyState := by
  intro s faultReq rest hp hin
  have he : nextEvent s = .reset := nextEvent_of_present hin
  rw [step_eq hp, he, takeEvent, resetEvent, popInput_inputs, hin]
  rfl

end Sys2Proof.Machine
end
